-- ==== Sys2Proof/Config.lean ====
section
/-! DEFINITION. The implementation parameters of 00_scope.md R7, each under its own name, at the value this hardware takes.
The types of Word.lean take their widths from here, and the operations their formats, bounds and tie direction. The block
has no value the spec leaves free. -/

namespace Sys2Proof

/-- The names of the `FIELDS` table (30_encoding.md R69, 43_bitfield.md R168). -/
inductive FieldName where
  | srM | srE | fbwM | fbwE | paIdx | hdrRw | hdrBurst | hdrAddr
  deriving DecidableEq, Repr

/-- The byte a named field sits in (43_bitfield.md R168): a chip register, by its address, or the bus header byte. -/
inductive FieldHome where
  | register (address : BitVec 8)
  | headerByte
  deriving DecidableEq, Repr

/-- The directions a rounding tie can take, the values of `TIE` (00_scope.md R7, 93_implementation_defined.md U5). -/
inductive Tie where
  /-- toward the larger value, the direction of this hardware (R7) -/
  | halfUp
  /-- toward the smaller value. DESIGN CHOICE (log entry 8): the spec names no other direction, and no parameter takes it -/
  | halfDown
  deriving DecidableEq, Repr

/-- One row of the `FIELDS` table; the two bit indices are 0 to 7 (43_bitfield.md R168). -/
structure FieldRow where
  field : FieldName
  hi : BitVec 3
  lo : BitVec 3
  home : FieldHome
  deriving DecidableEq, Repr

/-- The `FIELDS` table is a parameter (92_eei_decisions.md D13); every function that needs one takes it as an
argument. -/
abbrev FieldTable := List FieldRow

namespace Config

/-- `XTAL_W`, the width of `XTAL_HZ` (00_scope.md R7). -/
def xtalW : Nat := 32

/-- `XTAL_RESET`, the value of `XTAL_HZ` after reset: 26,000,000 (00_scope.md R7, 10_state.md R28). -/
def xtalReset : BitVec (delta% xtalW) := 26000000#32

/-- `CMD_W`, the width of a command word (00_scope.md R7). -/
def cmdW : Nat := 64

/-- `RSP_W`, the width of a response word (00_scope.md R7). -/
def rspW : Nat := 64

/-- `PAY_W`, the width of the payload in both words (00_scope.md R7). -/
def payW : Nat := 56

/-- `HZ_FRAC`, the fraction bits of the hertz format UQ40.16 (00_scope.md R7, R10). -/
def hzFrac : Nat := 16

/-- `BAUD_FRAC`, the fraction bits of the baud format UQ28.28 (00_scope.md R7, R10). -/
def baudFrac : Nat := 28

/-- `FCW_W`, the width of the frequency control word (00_scope.md R7). -/
def fcwW : Nat := 24

/-- `SR_M_W`, the width of the symbol-rate mantissa (00_scope.md R7). -/
def srMW : Nat := 8

/-- `SR_E_W`, the width of the symbol-rate exponent (00_scope.md R7). -/
def srEW : Nat := 4

/-- `FBW_M_W`, the width of the filter-bandwidth mantissa (00_scope.md R7). -/
def fbwMW : Nat := 2

/-- `FBW_E_W`, the width of the filter-bandwidth exponent (00_scope.md R7). -/
def fbwEW : Nat := 2

/-- `TIE`, the direction of a rounding tie: half up (00_scope.md R7). -/
def tie : Tie := .halfUp

/-- The default `FIELDS` table (43_bitfield.md R168). PRESUMED: the register addresses and bit positions of the first
five rows are, by the spec's own mark, from general knowledge (93_implementation_defined.md G1, log entry 9; unsafe for
a claim about a real chip). The three header rows are from the source. No command of the block reads this table. -/
def fields : FieldTable :=
  [ ⟨.srM, 7, 0, .register 0x11⟩,
    ⟨.srE, 3, 0, .register 0x10⟩,
    ⟨.fbwE, 7, 6, .register 0x10⟩,
    ⟨.fbwM, 5, 4, .register 0x10⟩,
    ⟨.paIdx, 2, 0, .register 0x22⟩,
    ⟨.hdrRw, 7, 7, .headerByte⟩,
    ⟨.hdrBurst, 6, 6, .headerByte⟩,
    ⟨.hdrAddr, 5, 0, .headerByte⟩ ]

/-- The addresses of the three frequency registers, `b0` first (43_bitfield.md R168, closing paragraph). PRESUMED: from
general knowledge (93_implementation_defined.md G1, log entry 9; unsafe for a claim about a real chip). -/
def fcwRegisters : List (BitVec 8) := [0x0D, 0x0E, 0x0F]

end Config
end Sys2Proof
end

