-- ==== Sys2Proof/Word.lean ====
section
/-! DEFINITION. The bit-vector types of the command and response words (00_scope.md R7, R8, 30_encoding.md R60, R61).
All quantities of the block are unsigned (R8). A width that R7 makes a parameter is read from Config, where `delta%` puts
the parameter's value in its place. -/

namespace Sys2Proof

/-- An 8-bit register byte; bit 7 is its most significant bit (20_memory.md R41). -/
abbrev Byte := BitVec 8

/-- A command word, `CMD_W` bits (00_scope.md R7). -/
abbrev Word := BitVec (delta% Config.cmdW)

/-- A response word, `RSP_W` bits (00_scope.md R7). -/
abbrev RspWord := BitVec (delta% Config.rspW)

/-- The payload of a command or a response word, `PAY_W` bits (00_scope.md R7): operands, results, and raw real
quantities (R10). -/
abbrev Pay := BitVec (delta% Config.payW)

/-- A whole number of hertz, the type of `XTAL_HZ`, `XTAL_W` bits (00_scope.md R7, 10_state.md R24). -/
abbrev Crystal := BitVec (delta% Config.xtalW)

/-- A bit index into a register byte, 0 to 7 (43_bitfield.md R160). -/
abbrev BitIndex := BitVec 3

/-- The symbol-rate mantissa, `SR_M_W` bits (00_scope.md R7, 42_symbol_rate.md R130). -/
abbrev Mantissa := BitVec (delta% Config.srMW)

/-- The symbol-rate exponent, `SR_E_W` bits (00_scope.md R7), and the payload field that both mantissa/exponent families
share (30_encoding.md R63). -/
abbrev Exponent := BitVec (delta% Config.srEW)

/-- A 64-bit word from its two fields, the 8-bit one in bits 63:56 and the payload in bits 55:0: the shape of a command
word (30_encoding.md R60) and of a response word (R61). -/
def joinWord (top : Byte) (pay : Pay) : Word := top ++ pay

/-- A field of a payload, its bit 0 at bit `at_` of the payload and zeros elsewhere (30_encoding.md R63). -/
def payAt {n : Nat} (v : BitVec n) (at_ : Nat) : Pay := v.setWidth _ <<< at_

end Sys2Proof
end

