-- ==== Sys2Proof/Syntax.lean ====
section
/-! DEFINITION. The ten operations (30_encoding.md R62) with their operands (R63). Each operand has exactly the width of
its payload field, so every term is an instruction the encoding has. Operand order is the assembler's (R67). -/

namespace Sys2Proof

/-- An instruction of the block, one constructor per row of spec/opcode_table.json. -/
inductive Instr where
  /-- `XTAL.GET` (44_config.md R180) -/
  | xtalGet
  /-- `XTAL.SET x` (44_config.md R182) -/
  | xtalSet (x : Crystal)
  /-- `FCW.DEC b0, b1, b2`, `b0` the most significant byte (40_fcw.md R90) -/
  | fcwDec (b0 b1 b2 : Byte)
  /-- `FCW.ENC h` (40_fcw.md R91) -/
  | fcwEnc (h : Pay)
  /-- `FBW.DEC m, e` (41_filter_bandwidth.md R110) -/
  | fbwDec (m : Byte) (e : Exponent)
  /-- `FBW.ENC h` (41_filter_bandwidth.md R111) -/
  | fbwEnc (h : Pay)
  /-- `SR.DEC m, e` (42_symbol_rate.md R130) -/
  | srDec (m : Mantissa) (e : Exponent)
  /-- `SR.ENC r` (42_symbol_rate.md R131) -/
  | srEnc (r : Pay)
  /-- `BF.EXT byte, hi, lo` (43_bitfield.md R160) -/
  | bfExt (byte : Byte) (hi lo : BitIndex)
  /-- `BF.INS byte, hi, lo, value` (43_bitfield.md R161) -/
  | bfIns (byte : Byte) (hi lo : BitIndex) (value : Byte)
  deriving DecidableEq, Repr

end Sys2Proof
end

