-- ==== Sys2Proof/Decode.lean ====
section
/-! DEFINITION. The decoder and the encoder of command words (30_encoding.md R60 to R66, R70; spec/opcode_table.json). -/

namespace Sys2Proof

/-- The `op` field of a command word, bits 63:56 (R60). -/
def opField (w : Word) : Byte := w.extractLsb' 56 8

/-- The `pay` field of a command word, bits 55:0 (R60). -/
def payField (w : Word) : Pay := w.extractLsb' 0 56

/-- A row of the opcode table: a word matches it when `(word & mask) = pattern` (R64). -/
structure OpRow where
  mnemonic : String
  pattern : Word
  mask : Word
  build : Word → Instr

/-- `(cmd & row.mask) == row.match` of R70. -/
def OpRow.hits (r : OpRow) (w : Word) : Bool := w &&& r.mask == r.pattern

/-- The ten rows of spec/opcode_table.json, in its order, each with its fields cut as R63 lays them out. -/
def opcodeTable : List OpRow :=
  [ ⟨"XTAL.GET", 0x0100000000000000, 0xFFFFFFFFFFFFFFFF, fun _ => .xtalGet⟩,
    ⟨"XTAL.SET", 0x0200000000000000, 0xFFFFFFFF00000000, fun w => .xtalSet (w.extractLsb' 0 32)⟩,
    ⟨"FCW.DEC", 0x1000000000000000, 0xFFFFFFFFFF000000,
      fun w => .fcwDec (w.extractLsb' 16 8) (w.extractLsb' 8 8) (w.extractLsb' 0 8)⟩,
    ⟨"FCW.ENC", 0x1100000000000000, 0xFF00000000000000, fun w => .fcwEnc (w.extractLsb' 0 56)⟩,
    ⟨"FBW.DEC", 0x2000000000000000, 0xFFFFFFFFFFFFF000,
      fun w => .fbwDec (w.extractLsb' 0 8) (w.extractLsb' 8 4)⟩ ] ++
  [ ⟨"FBW.ENC", 0x2100000000000000, 0xFF00000000000000, fun w => .fbwEnc (w.extractLsb' 0 56)⟩,
    ⟨"SR.DEC", 0x3000000000000000, 0xFFFFFFFFFFFFF000,
      fun w => .srDec (w.extractLsb' 0 8) (w.extractLsb' 8 4)⟩,
    ⟨"SR.ENC", 0x3100000000000000, 0xFF00000000000000, fun w => .srEnc (w.extractLsb' 0 56)⟩,
    ⟨"BF.EXT", 0x4000000000000000, 0xFFFFFFFFFFC0FF00,
      fun w => .bfExt (w.extractLsb' 0 8) (w.extractLsb' 19 3) (w.extractLsb' 16 3)⟩,
    ⟨"BF.INS", 0x4100000000000000, 0xFFFFFFFFFFC00000,
      fun w => .bfIns (w.extractLsb' 0 8) (w.extractLsb' 19 3) (w.extractLsb' 16 3) (w.extractLsb' 8 8)⟩ ]

/-- Why a word is no command. DESIGN CHOICE, safe (log entry 13): the spec has the one outcome `Illegal`; the two names
say which of R64 and R65 applies and lead to the same response. -/
inductive Illegal where
  /-- `op` is none of the ten codes (R65) -/
  | unassignedOp
  /-- `op` is assigned and a payload bit that R63 marks 0 is set (R64) -/
  | reservedPayloadBit
  deriving DecidableEq, Repr

/-- What decoding a word gives (R70). -/
inductive Decoded where
  | instr (i : Instr)
  | illegal (why : Illegal)
  deriving DecidableEq, Repr

/-- `op` is one of the ten codes of R62. -/
def opAssigned (op : Byte) : Bool :=
  opcodeTable.any fun r => opField r.pattern == op

/-- The total decoder of R70: the operation of the row that alone matches, else illegal. -/
def decode (w : Word) : Decoded :=
  match opcodeTable.filter (·.hits w) with
  | [r] => .instr (r.build w)
  | _ => .illegal (if opAssigned (opField w) then .reservedPayloadBit else .unassignedOp)

/-- The operation code of an instruction (R62). -/
def Instr.op : Instr → Byte
  | .xtalGet => 0x01
  | .xtalSet _ => 0x02
  | .fcwDec _ _ _ => 0x10
  | .fcwEnc _ => 0x11
  | .fbwDec _ _ => 0x20
  | .fbwEnc _ => 0x21
  | .srDec _ _ => 0x30
  | .srEnc _ => 0x31
  | .bfExt _ _ _ => 0x40
  | .bfIns _ _ _ _ => 0x41

/-- The command payload of an instruction, laid out as R63 says: mantissa in 7:0 and exponent in 11:8; `b0` in 23:16,
`b1` in 15:8, `b2` in 7:0 (20_memory.md R42); byte in 7:0, value in 15:8, lo in 18:16, hi in 21:19. -/
def Instr.pay : Instr → Pay
  | .xtalGet => 0
  | .xtalSet x => payAt x 0
  | .fcwDec b0 b1 b2 => payAt b0 16 ||| payAt b1 8 ||| payAt b2 0
  | .fcwEnc h => h
  | .fbwDec m e => payAt e 8 ||| payAt m 0
  | .fbwEnc h => h
  | .srDec m e => payAt e 8 ||| payAt m 0
  | .srEnc r => r
  | .bfExt byte hi lo => payAt hi 19 ||| payAt lo 16 ||| payAt byte 0
  | .bfIns byte hi lo value => payAt hi 19 ||| payAt lo 16 ||| payAt value 8 ||| payAt byte 0

/-- The command word of an instruction, `op` in bits 63:56 and `pay` in bits 55:0 (R60). -/
def encode (i : Instr) : Word := joinWord i.op i.pay

/-- The instruction the decoder reads from a command word given as the number `w` of `nbits` bits. A command is one
64-bit word presented whole (R60, 20_memory.md R43), so bit `k` of `w` is bit `k` of the word. DESIGN CHOICE, safe (log entry
16): the spec has no words of another length (R66); a shorter number stands for the word with zeros above it, and a longer
one has no reading unless its bits above `CMD_W` are zero. -/
def decodeTableWord (nbits w : Nat) : Option Instr :=
  if w % 2 ^ nbits < 2 ^ Config.cmdW then
    match decode (BitVec.ofNat _ (w % 2 ^ nbits)) with
    | .instr i => some i
    | .illegal _ => none
  else none

end Sys2Proof
end

