-- ==== Sys2Proof/Machine/State.lean ====
section
/-! DEFINITION. The state of the block, its response port, and what the host presents to it (10_state.md). -/

namespace Sys2Proof.Machine

/-- The two synchronous exceptions of the block, and the only ones (60_exceptions.md R191, R192, R193). -/
inductive ErrorKind where
  /-- an operand value is outside the operation's domain (R191) -/
  | domainError
  /-- the word is not one of the ten commands (R192) -/
  | illegalCommand
  deriving DecidableEq, Repr

/-- The outcome a response word reports (30_encoding.md R61, 60_exceptions.md R190). An error is a value of its own that
has no result, not a result of zero (R61, R196). -/
inductive Response where
  /-- status OK, with a result payload -/
  | ok (pay : Pay)
  /-- an error status; the payload carries no meaning -/
  | error (e : ErrorKind)
  deriving DecidableEq, Repr

/-- What the host does at the command port and the reset input (60_exceptions.md R206, 70_reset_and_hazards.md R220,
R224). DESIGN CHOICE (log entries 1, 5, 6): the spec makes each of these an input of the step (10_state.md R30). -/
inductive HostEvent where
  /-- present one command word and wait for its response (R206) -/
  | command (w : Word)
  /-- assert and release reset between commands (R206, R220) -/
  | reset
  /-- present a command word and assert reset before its response was produced (R220) -/
  | commandCutByReset (w : Word)
  /-- present a second command word before the response to the first (R224) -/
  | overlappingCommands (first second : Word)
  deriving DecidableEq, Repr

/-- The state. `xtalHz` is everything the spec gives the block (10_state.md R28); `port` and `response` are the model's
own, since an input and an output of a step must stand in State (10_state.md R30; log entries 1 and 2). -/
structure State where
  /-- `XTAL_HZ`, the crystal frequency in hertz (10_state.md R24) -/
  xtalHz : Crystal
  /-- what the host will present, the next interaction first -/
  port : List HostEvent
  /-- what the response port carried at the end of the latest step; no rule reads it -/
  response : Option Response
  deriving DecidableEq, Repr

/-- The state right after reset: `XTAL_HZ = 26,000,000` (10_state.md R28). DESIGN CHOICE: nothing is presented yet and no
response has been given (log entries 1 and 2). -/
def State.reset : State := { xtalHz := Config.xtalReset, port := [], response := none }

/-- Why the model has no step, where the spec says there is none. Neither is raised by an instruction on legal state. -/
inductive Fault where
  /-- Raised by the port when a second command is presented before the response to the first: "a model gives it no
  meaning (it has no step for it)" (70_reset_and_hazards.md R224, 93_implementation_defined.md U11). Safe. -/
  | overlappingCommands
  /-- Raised by the six conversions when `XTAL_HZ` is 0, a value that "is never held" (10_state.md R24) and for which no
  rule gives a result. DESIGN CHOICE (log entry 7). Safe: no step leads from a nonzero to a zero crystal. -/
  | zeroCrystal
  deriving DecidableEq, Repr

/-- Why a step has no meaning in the model. -/
inductive Refusal where
  /-- Raised by `exec` for an instruction without a meaning; there is none left. Safe. -/
  | notModelled (mnemonic : String)
  /-- Raised by the port when the host presents nothing: a step is one command (70_reset_and_hazards.md R227,
  60_exceptions.md R206 last row). DESIGN CHOICE (log entry 4). Safe. -/
  | noCommand
  deriving DecidableEq, Repr

end Sys2Proof.Machine
end

