-- ==== Sys2Proof/Machine/Ops.lean ====
section
/-! DEFINITION. The shared operations: answering, taking an exception, reading and writing `XTAL_HZ`, resetting, and
rounding. The block has no memory, so there is no memory operation (20_memory.md R40). -/

namespace Sys2Proof.Machine

/-- The outcome type of a step. -/
abbrev StepResult := Host.Outcome State Fault Refusal

/-- The state with the response port carrying `r`. -/
def State.answer (s : State) (r : Response) : State := { s with response := some r }

/-- `respond(0x00, pay)` (00_scope.md R9): end the step with an OK response. -/
def respond (pay : Pay) (s : State) : StepResult := .next (s.answer (.ok pay))

/-- Taking an exception, `raise DomainError` and `raise IllegalCommand`: "nothing more than producing the error response";
no state is saved and none is written (60_exceptions.md R191, R192, R196). There is no return from it: "After an error
response the block is ready for the next command" (R198). -/
def raise (e : ErrorKind) (s : State) : StepResult := .next (s.answer (.error e))

/-- End the step with the result an operation computed, or with DomainError where it computed none. -/
def respondOrRaise (result : Option Pay) (s : State) : StepResult :=
  match result with
  | some pay => respond pay s
  | none => raise .domainError s

/-- A conversion reads `XTAL_HZ` (10_state.md R23) and ends the step with what `f` gives for it. `XTAL_HZ` is never zero
(R24): in a state where it is, the model has no step (log entry 7). -/
def convert (f : Nat → Option Pay) (s : State) : StepResult :=
  if s.xtalHz = 0 then .fault .zeroCrystal else respondOrRaise (f s.xtalHz.toNat) s

/-- `XTAL_HZ <- x` (00_scope.md R9). -/
def State.setCrystal (s : State) (x : Crystal) : State := { s with xtalHz := x }

/-- The reset state of the block, the same whatever it was doing, with no response (70_reset_and_hazards.md R220); what the
host will present next is the host's and stays. -/
def resetBlock (s : State) : StepResult := .next { State.reset with port := s.port }

/-- `round_half_up(a / b)` for `b > 0`: the nearest integer, a tie going to the larger (00_scope.md R9). -/
def roundHalfUp (a b : Nat) : Nat := (2 * a + b) / (2 * b)

/-- `a / b` for `b > 0` to the nearest integer, a tie going where `t` says (`TIE`, 00_scope.md R7). -/
def roundNearest (t : Tie) (a b : Nat) : Nat :=
  match t with
  | .halfUp => roundHalfUp a b
  | .halfDown => (2 * a + b - 1) / (2 * b)

/-- A value compared with the midpoint of two neighbours: whether it goes to the lower one, a tie going where `t` says
(`TIE`, 00_scope.md R7). -/
def goesBelow (t : Tie) (a midpoint : Nat) : Bool :=
  match t with
  | .halfUp => a < midpoint
  | .halfDown => a ≤ midpoint

end Sys2Proof.Machine
end

