-- ==== Sys2Proof/Machine/Bitfield.lean ====
section
/-! DEFINITION. The register bit-field operations (43_bitfield.md). Neither reads `XTAL_HZ` (10_state.md R23). -/

namespace Sys2Proof.Machine

/-- The width of the range `hi..lo`, for `lo ≤ hi` (43_bitfield.md R160). -/
def rangeWidth (hi lo : BitIndex) : Nat := hi.toNat - lo.toNat + 1

/-- `byte[hi:lo]`, right-aligned and zero-extended (43_bitfield.md R160). -/
def bfExtract (byte : Byte) (hi lo : BitIndex) : Byte :=
  (byte >>> lo.toNat) &&& BitVec.ofNat 8 (2 ^ rangeWidth hi lo - 1)

/-- The 8-bit mask of the bits `hi..lo` (43_bitfield.md R161). -/
def fieldMask (hi lo : BitIndex) : Byte := BitVec.ofNat 8 ((2 ^ rangeWidth hi lo - 1) * 2 ^ lo.toNat)

/-- The byte with `value` in bits `hi..lo` and its other bits kept (43_bitfield.md R161). -/
def bfInsert (byte : Byte) (hi lo : BitIndex) (value : Byte) : Byte :=
  (byte &&& ~~~ fieldMask hi lo) ||| (value <<< lo.toNat)

/-- `BF.EXT byte, hi, lo` (43_bitfield.md R160). -/
def execBfExt (byte : Byte) (hi lo : BitIndex) (s : State) : StepResult :=
  if hi < lo then raise .domainError s else respond ((bfExtract byte hi lo).setWidth _) s

/-- `BF.INS byte, hi, lo, value` (43_bitfield.md R161). -/
def execBfIns (byte : Byte) (hi lo : BitIndex) (value : Byte) (s : State) : StepResult :=
  if hi < lo then raise .domainError s
  else if 2 ^ rangeWidth hi lo ≤ value.toNat then raise .domainError s
  else respond ((bfInsert byte hi lo value).setWidth _) s

end Sys2Proof.Machine
end

