-- ==== Sys2Proof/Machine/Operands.lean ====
section
/-! DEFINITION. The operand and result forms of the payloads (30_encoding.md R63) and the real quantities a raw payload
denotes (00_scope.md R10). -/

namespace Sys2Proof.Machine

/-- The frequency control word of a byte sequence, big-endian (20_memory.md R42, 00_scope.md R11). -/
def controlWord (b0 b1 b2 : Byte) : Nat := b0.toNat * 2 ^ 16 + b1.toNat * 2 ^ 8 + b2.toNat

/-- A mantissa/exponent pair as a payload: mantissa in 7:0, exponent in 11:8 (30_encoding.md R63). -/
def packPair (m : Byte) (e : Exponent) : Pay := payAt e 8 ||| payAt m 0

/-- The three bytes of a control word as a payload: `b0` in 23:16, `b1` in 15:8, `b2` in 7:0 (30_encoding.md R63). -/
def packBytes (b0 b1 b2 : Byte) : Pay := payAt b0 16 ||| payAt b1 8 ||| payAt b2 0

/-- The hertz a raw payload denotes, HZ format UQ40.16 (00_scope.md R10). -/
def hertzOf (h : Pay) : ℚ := h.toNat / 2 ^ Config.hzFrac

/-- The baud a raw payload denotes, BAUD format UQ28.28 (00_scope.md R10). -/
def baudOf (r : Pay) : ℚ := r.toNat / 2 ^ Config.baudFrac

end Sys2Proof.Machine
end

