-- ==== Sys2Proof/Machine/Fcw.lean ====
section
/-! DEFINITION. The frequency control word operations (40_fcw.md). `X` is the value of `XTAL_HZ`. -/

namespace Sys2Proof.Machine

/-- The quantization step `X / 2^16` hertz (00_scope.md R12) as a raw value. "The HZ format has exactly the 16 fractional
bits the division by `2^16` needs" (40_fcw.md R90), so here it is `X`. -/
def fcwStep (X : Nat) : Nat := X * 2 ^ (Config.hzFrac - 16)

/-- The raw hertz of a control word (40_fcw.md R90). -/
def fcwDecode (X value : Nat) : Nat := value * fcwStep X

/-- The control word nearest to a raw frequency, if it fits `FCW_W` bits (40_fcw.md R91). -/
def fcwEncode (X h : Nat) : Option Nat :=
  let word := roundNearest Config.tie h (fcwStep X)
  if 2 ^ Config.fcwW ≤ word then none else some word

/-- `FCW.DEC b0, b1, b2` (40_fcw.md R90). -/
def execFcwDec (b0 b1 b2 : Byte) (s : State) : StepResult :=
  convert (fun X => some (BitVec.ofNat _ (fcwDecode X (controlWord b0 b1 b2)))) s

/-- `FCW.ENC h` (40_fcw.md R91). -/
def execFcwEnc (h : Pay) (s : State) : StepResult :=
  convert (fun X => (fcwEncode X h.toNat).map (BitVec.ofNat _)) s

end Sys2Proof.Machine
end

