-- ==== Sys2Proof/Machine/FilterBandwidth.lean ====
section
/-! DEFINITION. The filter-bandwidth operations (41_filter_bandwidth.md). `X` is the value of `XTAL_HZ`. -/

namespace Sys2Proof.Machine

/-- `k = (4 + m) * 2^e`; the bandwidth of a pair is `X / (8 * k)` hertz (41_filter_bandwidth.md R112). -/
def fbwK (p : Nat × Nat) : Nat := (2 ^ Config.fbwMW + p.1) * 2 ^ p.2

/-- The raw bandwidth of an in-bounds pair, `X * 2^16 / (8 * (4 + m) * 2^e)` rounded half up (41_filter_bandwidth.md R110). -/
def fbwDecode (X m e : Nat) : Nat := roundHalfUp (X * 2 ^ (Config.hzFrac - 3 - e)) (2 ^ Config.fbwMW + m)

/-- A mantissa and an exponent are in bounds, 0 to 3 each (41_filter_bandwidth.md R110). -/
def fbwInBounds (m e : Nat) : Bool := m < 2 ^ Config.fbwMW && e < 2 ^ Config.fbwEW

/-- The sixteen pairs `(m, e)` in decreasing order of bandwidth: exponent by exponent, each with its mantissas in order
(41_filter_bandwidth.md R112). -/
def fbwPairs : List (Nat × Nat) :=
  (List.range (2 ^ Config.fbwEW)).flatMap fun e => (List.range (2 ^ Config.fbwMW)).map fun m => (m, e)

/-- The pair of the smallest bandwidth, `(3, 3)` (41_filter_bandwidth.md R112). -/
def fbwLast : Nat × Nat := (2 ^ Config.fbwMW - 1, 2 ^ Config.fbwEW - 1)

/-- The loop of R111: the first pair with `h` at or above its midpoint to the next pair, else the last pair. The raw midpoint
of two pairs is `X * 2^12 * (k1 + k2) / (k1 * k2)`. -/
def fbwSearch (X h : Nat) : List (Nat × Nat) → Nat × Nat
  | [] => fbwLast
  | [p] => p
  | p :: q :: rest =>
    if goesBelow Config.tie (h * fbwK p * fbwK q) (X * 2 ^ (Config.hzFrac - 4) * (fbwK p + fbwK q)) then
      fbwSearch X h (q :: rest)
    else p

/-- The pair nearest to a raw bandwidth, within the span of the sixteen pairs (41_filter_bandwidth.md R111). -/
def fbwEncode (X h : Nat) : Option (Nat × Nat) :=
  if h > fbwDecode X 0 0 ∨ h < fbwDecode X fbwLast.1 fbwLast.2 then none else some (fbwSearch X h fbwPairs)

/-- `FBW.DEC m, e` (41_filter_bandwidth.md R110). -/
def execFbwDec (m : Byte) (e : Exponent) (s : State) : StepResult :=
  convert (fun X => if fbwInBounds m.toNat e.toNat then some (BitVec.ofNat _ (fbwDecode X m.toNat e.toNat))
    else none) s

/-- `FBW.ENC h` (41_filter_bandwidth.md R111). -/
def execFbwEnc (h : Pay) (s : State) : StepResult :=
  convert (fun X => (fbwEncode X h.toNat).map
    fun p => packPair (BitVec.ofNat _ p.1) (BitVec.ofNat _ p.2)) s

end Sys2Proof.Machine
end

