-- ==== Sys2Proof/Machine/SymbolRate.lean ====
section
/-! DEFINITION. The symbol-rate operations (42_symbol_rate.md). `X` is the value of `XTAL_HZ`. -/

namespace Sys2Proof.Machine

/-- `N(m, e) = (256 + m) * 2^e`; the rate of a pair is `N(m, e) * X / 2^28` baud (42_symbol_rate.md opening, R130). -/
def srN (m e : Nat) : Nat := (2 ^ Config.srMW + m) * 2 ^ e

/-- `X / 2^28` baud as a raw value. "The BAUD format has exactly the 28 fractional bits the division by `2^28` needs"
(42_symbol_rate.md R130), so here it is `X`. -/
def srStep (X : Nat) : Nat := X * 2 ^ (Config.baudFrac - 28)

/-- The raw rate of a pair (42_symbol_rate.md R130). -/
def srDecode (X m e : Nat) : Nat := srN m e * srStep X

/-- The loop of R131, `while e < 16 and (512 << e) * X <= r: e = e + 1`, with `steps` increments left and `u` for `X`. -/
def srSearch (u r : Nat) : Nat → Nat → Nat
  | 0, e => e
  | steps + 1, e => if 2 ^ (Config.srMW + 1) * 2 ^ e * u ≤ r then srSearch u r steps (e + 1) else e

/-- The carry policy: a mantissa that rounds to 256 (`M = 512`) increments the exponent and becomes 0; a carry out of the
4-bit exponent has no pair (42_symbol_rate.md R131, R132). `M` is the rounded `256 + mantissa` at exponent `e`. -/
def srCarry (M e : Nat) : Option (Nat × Nat) :=
  if M = 2 ^ (Config.srMW + 1) then (if e + 1 = 2 ^ Config.srEW then none else some (0, e + 1))
  else some (M - 2 ^ Config.srMW, e)

/-- The pair `(m, e)` nearest to a raw rate (42_symbol_rate.md R131). The lower limit, `2r` against `511 X`, is the midpoint
between the smallest rate and the one that a mantissa below 0 would have. -/
def srEncode (X r : Nat) : Option (Nat × Nat) :=
  let u := srStep X
  let e := srSearch u r (2 ^ Config.srEW) 0
  if goesBelow Config.tie (2 * r) ((2 ^ (Config.srMW + 1) - 1) * u) then none
  else if e = 2 ^ Config.srEW then none
  else srCarry (roundNearest Config.tie r (u * 2 ^ e)) e

/-- `SR.DEC m, e` (42_symbol_rate.md R130). -/
def execSrDec (m : Mantissa) (e : Exponent) (s : State) : StepResult :=
  convert (fun X => some (BitVec.ofNat _ (srDecode X m.toNat e.toNat))) s

/-- `SR.ENC r` (42_symbol_rate.md R131). -/
def execSrEnc (r : Pay) (s : State) : StepResult :=
  convert (fun X => (srEncode X r.toNat).map
    fun p => packPair (BitVec.ofNat _ p.1) (BitVec.ofNat _ p.2)) s

end Sys2Proof.Machine
end

