-- ==== Sys2Proof/Machine/Xtal.lean ====
section
/-! DEFINITION. The configuration operations (44_config.md). -/

namespace Sys2Proof.Machine

/-- `XTAL.GET` (44_config.md R180). -/
def execXtalGet (s : State) : StepResult := respond (s.xtalHz.setWidth _) s

/-- `XTAL.SET x` (44_config.md R182). -/
def execXtalSet (x : Crystal) (s : State) : StepResult :=
  if x = 0 then raise .domainError s else respond 0 (s.setCrystal x)

end Sys2Proof.Machine
end

