-- ==== Sys2Proof/Machine/Dispatch.lean ====
section
/-! DEFINITION. The dispatch from instructions to their meanings (30_encoding.md R62). -/

namespace Sys2Proof.Machine

/-- The effect of one instruction. -/
def exec (i : Instr) (s : State) : Host.Outcome State Fault Refusal :=
  match i with
  | .xtalGet => Sys2Proof.Machine.execXtalGet s
  | .xtalSet x => Sys2Proof.Machine.execXtalSet x s
  | .fcwDec b0 b1 b2 => Sys2Proof.Machine.execFcwDec b0 b1 b2 s
  | .fcwEnc h => Sys2Proof.Machine.execFcwEnc h s
  | .fbwDec m e => Sys2Proof.Machine.execFbwDec m e s
  | .fbwEnc h => Sys2Proof.Machine.execFbwEnc h s
  | .srDec m e => Sys2Proof.Machine.execSrDec m e s
  | .srEnc r => Sys2Proof.Machine.execSrEnc r s
  | .bfExt byte hi lo => Sys2Proof.Machine.execBfExt byte hi lo s
  | .bfIns byte hi lo value => Sys2Proof.Machine.execBfIns byte hi lo value s

end Sys2Proof.Machine
end

