-- ==== Sys2Proof/Machine/Port.lean ====
section
/-! DEFINITION. The command port and the reset input (30_encoding.md R60, R70, 60_exceptions.md R206,
70_reset_and_hazards.md R220, R224). -/

namespace Sys2Proof.Machine

/-- A command word presented to the block: it is decoded whole, and a word that is no command is answered with
IllegalCommand before any operand is looked at (30_encoding.md R70, 60_exceptions.md R192, R195). -/
def runCommand (w : Word) (s : State) : StepResult :=
  match decode w with
  | .instr i => exec i s
  | .illegal _ => raise .illegalCommand s

/-- One interaction of the host, in the state in which it has been taken from the port. A command cut off by reset "produces
no response and has no effect" (70_reset_and_hazards.md R220); overlapping commands have no step (R224). -/
def takeEvent (e : HostEvent) (s : State) : StepResult :=
  match e with
  | .command w => runCommand w s
  | .reset => resetBlock s
  | .commandCutByReset _ => resetBlock s
  | .overlappingCommands _ _ => .fault .overlappingCommands

/-- The step over what stands at the port: nothing presented, no step (log entry 4). -/
def stepPort (s : State) : StepResult :=
  match s.port with
  | [] => .refused .noCommand
  | e :: rest => takeEvent e { s with port := rest }

/-- The state with a command word, given as the number `w` of `nbits` bits, as the next thing presented. DESIGN
CHOICE, safe (log entry 16): the spec has no words of another length (30_encoding.md R66); a shorter number stands for the word
with zeros above it, and of a longer one the low `CMD_W` bits are taken. -/
def State.presentNext (s : State) (nbits w : Nat) : State :=
  { s with port := .command (BitVec.ofNat _ (w % 2 ^ nbits)) :: s.port }

/-- A host's program: a finite list of command words issued in order (10_state.md R21). -/
def State.withProgram (s : State) (words : List Word) : State :=
  { s with port := words.map .command }

end Sys2Proof.Machine
end

