-- ==== Sys2Proof/Machine/Step.lean ====
section
/-! DEFINITION. One step of the block: one interaction of the host, whole (30_encoding.md R60, 20_memory.md R44). -/

namespace Sys2Proof.Machine

/-- One step. -/
def step (s : State) : Host.Outcome State Fault Refusal := stepPort s

/-- The block fetches nothing; a program comes to it as the commands the host presents (10_state.md R21, log entry 1).
This puts a command word where the next step takes it. -/
def State.withFetchWord (s : State) (nbits w : Nat) : State := s.presentNext nbits w

end Sys2Proof.Machine
end

