-- ==== Sys2Proof/WellFormed.lean ====
section
/-! DEFINITION. Which source lines of the assembler denote a command (30_encoding.md R67, R68, R69). The operands of
`Instr` have their fields' widths, so every `Instr` is well formed; what can be ill formed is a source line, whose
operands are unsigned integers of any size. -/

namespace Sys2Proof

/-- The mnemonics of R67 and the pseudo-instructions `GET.F` and `PUT.F` of R69. -/
inductive Mnemonic where
  | xtalGet | xtalSet | fcwDec | fcwEnc | fbwDec | fbwEnc | srDec | srEnc | bfExt | bfIns
  | get (f : FieldName)
  | put (f : FieldName)
  deriving DecidableEq, Repr

/-- A decimal number `digits / 10^places`, the argument of a literal helper (R68). -/
structure Decimal where
  digits : Nat
  places : Nat
  deriving DecidableEq, Repr

/-- An operand as written: an unsigned integer, `HZ(d)` or `BAUD(d)` (R67, R68). -/
inductive Literal where
  | num (n : Nat)
  | hz (d : Decimal)
  | baud (d : Decimal)
  deriving DecidableEq, Repr

/-- One source line: a mnemonic and its operands in the order of R67. -/
structure AsmLine where
  mnemonic : Mnemonic
  args : List Literal
  deriving DecidableEq, Repr

/-- `d * 2^frac`, refused if it is not an integer or does not fit 56 bits; never rounded (R68). -/
def Decimal.scaled (frac : Nat) (d : Decimal) : Option Nat :=
  if d.digits * 2 ^ frac % 10 ^ d.places = 0 ∧ d.digits * 2 ^ frac / 10 ^ d.places < 2 ^ Config.payW then
    some (d.digits * 2 ^ frac / 10 ^ d.places)
  else none

/-- The unsigned integer an operand stands for (R67, R68). -/
def Literal.value : Literal → Option Nat
  | .num n => some n
  | .hz d => d.scaled Config.hzFrac
  | .baud d => d.scaled Config.baudFrac

/-- The widths of a mnemonic's operand fields, in the order of R67; for a pseudo-instruction, those of the operands it
is written with (R69). -/
def Mnemonic.widths : Mnemonic → List Nat
  | .xtalGet => []
  | .xtalSet => [Config.xtalW]
  | .fcwDec => [8, 8, 8]
  | .fcwEnc => [Config.payW]
  | .fbwDec => [8, 4]
  | .fbwEnc => [Config.payW]
  | .srDec => [Config.srMW, Config.srEW]
  | .srEnc => [Config.payW]
  | .bfExt => [8, 3, 3]
  | .bfIns => [8, 3, 3, 8]
  | .get _ => [8]
  | .put _ => [8, 8]

/-- The operands evaluated, if there is exactly one for each field and each fits its field (R67). -/
def fitFields : List Nat → List Literal → Option (List Nat)
  | [], [] => some []
  | w :: ws, a :: as =>
    match a.value, fitFields ws as with
    | some v, some vs => if v < 2 ^ w then some (v :: vs) else none
    | _, _ => none
  | [], _ :: _ => none
  | _ :: _, [] => none

/-- A source line is well formed when its operands are as many as its mnemonic takes and each fits its field (R67). It is
not refused for a value the operation itself answers with DomainError. -/
def AsmLine.wellFormed (l : AsmLine) : Bool :=
  (fitFields l.mnemonic.widths l.args).isSome

end Sys2Proof
end

