-- ==== Sys2Proof/Machine/Assembler.lean ====
section
/-! DEFINITION. The assembler: a source line to a command word (30_encoding.md R67, R68, R69). It is a tool of the host; no
step of the block calls it. -/

namespace Sys2Proof.Machine

/-- The row of the `FIELDS` table for a name (43_bitfield.md R168). DESIGN CHOICE, safe (log entry 17): where a table given as
argument has two rows of one name, on which the spec is silent, the first is taken. -/
def fieldRow (T : FieldTable) (f : FieldName) : Option FieldRow := T.find? (·.field == f)

/-- `GET.F byte` to `BF.EXT byte, F.hi, F.lo` and `PUT.F byte, value` to `BF.INS byte, F.hi, F.lo, value`, by pure
substitution; any other line is left as it is (30_encoding.md R69). -/
def expand (T : FieldTable) (l : AsmLine) : Option AsmLine :=
  match l.mnemonic, l.args with
  | .get f, [byte] => (fieldRow T f).map fun r => ⟨.bfExt, [byte, .num r.hi.toNat, .num r.lo.toNat]⟩
  | .put f, [byte, value] =>
    (fieldRow T f).map fun r => ⟨.bfIns, [byte, .num r.hi.toNat, .num r.lo.toNat, value]⟩
  | .get _, _ => none
  | .put _, _ => none
  | _, _ => some l

/-- The instruction of a mnemonic with operands that fit their fields, each operand in the field of its name (30_encoding.md
R67). -/
def build (mn : Mnemonic) (args : List Nat) : Option Instr :=
  match mn, args with
  | .xtalGet, [] => some .xtalGet
  | .xtalSet, [x] => some (.xtalSet (BitVec.ofNat _ x))
  | .fcwDec, [b0, b1, b2] => some (.fcwDec (BitVec.ofNat 8 b0) (BitVec.ofNat 8 b1) (BitVec.ofNat 8 b2))
  | .fcwEnc, [h] => some (.fcwEnc (BitVec.ofNat _ h))
  | .fbwDec, [m, e] => some (.fbwDec (BitVec.ofNat 8 m) (BitVec.ofNat 4 e))
  | .fbwEnc, [h] => some (.fbwEnc (BitVec.ofNat _ h))
  | .srDec, [m, e] => some (.srDec (BitVec.ofNat _ m) (BitVec.ofNat _ e))
  | .srEnc, [r] => some (.srEnc (BitVec.ofNat _ r))
  | .bfExt, [byte, hi, lo] =>
    some (.bfExt (BitVec.ofNat 8 byte) (BitVec.ofNat 3 hi) (BitVec.ofNat 3 lo))
  | .bfIns, [byte, hi, lo, value] =>
    some (.bfIns (BitVec.ofNat 8 byte) (BitVec.ofNat 3 hi) (BitVec.ofNat 3 lo) (BitVec.ofNat 8 value))
  | _, _ => none

/-- The instruction a source line stands for, or nothing where the assembler refuses the line (30_encoding.md R67, R69). -/
def assembleInstr (T : FieldTable) (l : AsmLine) : Option Instr :=
  if l.wellFormed then
    (expand T l).bind fun c => (fitFields c.mnemonic.widths c.args).bind (build c.mnemonic)
  else none

/-- The command word of a source line (30_encoding.md R67). -/
def assemble (T : FieldTable) (l : AsmLine) : Option Word := (assembleInstr T l).map encode

end Sys2Proof.Machine
end

