-- ==== Sys2Proof/Machine/AsmText.lean ====
section
/-! DEFINITION. The written form of a source line (30_encoding.md R67, R68, R69): a mnemonic, then operands separated by
commas; unsigned integers, decimal or `0x` hexadecimal, or `HZ(d)` and `BAUD(d)`; `;` starts a comment. DESIGN CHOICE, safe
(log entry 14): blanks and tabs may stand around a mnemonic and an operand, and letter case is as the rules print it. -/

namespace Sys2Proof.Machine

/-- White space inside a line. -/
def isBlank (c : Char) : Bool := c == ' ' || c == '\t'

/-- A line without the blanks at its two ends. -/
def trimBlanks (cs : List Char) : List Char :=
  ((cs.dropWhile isBlank).reverse.dropWhile isBlank).reverse

/-- The parts of a line between separators; there is always at least one. -/
def splitAtChar (sep : Char) : List Char → List (List Char)
  | [] => [[]]
  | c :: cs =>
    if c = sep then [] :: splitAtChar sep cs
    else match splitAtChar sep cs with
      | [] => [[c]]
      | p :: ps => (c :: p) :: ps

/-- The value of a digit in a base up to 16. -/
def digitValue (base : Nat) (c : Char) : Option Nat :=
  let v :=
    if '0' ≤ c ∧ c ≤ '9' then c.toNat - '0'.toNat
    else if 'a' ≤ c ∧ c ≤ 'f' then c.toNat - 'a'.toNat + 10
    else if 'A' ≤ c ∧ c ≤ 'F' then c.toNat - 'A'.toNat + 10
    else 16
  if v < base then some v else none

/-- The digits of a number read after `acc`. -/
def readDigits (base acc : Nat) : List Char → Option Nat
  | [] => some acc
  | c :: cs => (digitValue base c).bind fun v => readDigits base (acc * base + v) cs

/-- A nonempty row of digits. -/
def readNat (base : Nat) : List Char → Option Nat
  | [] => none
  | c :: cs => readDigits base 0 (c :: cs)

/-- A decimal number, with or without a fraction (30_encoding.md R68). DESIGN CHOICE, safe (log entry 14), on a spelling the
spec is silent about: digits stand on both sides of a point (`.5` and `5.` are refused), and there is no sign and no exponent
part. -/
def readDecimal (cs : List Char) : Option Decimal :=
  match splitAtChar '.' cs with
  | [whole] => (readNat 10 whole).map fun n => ⟨n, 0⟩
  | [whole, frac] =>
    match readNat 10 whole, readNat 10 frac with
    | some _, some _ => (readNat 10 (whole ++ frac)).map fun n => ⟨n, frac.length⟩
    | _, _ => none
  | _ => none

/-- The text between a helper's parentheses. DESIGN CHOICE, safe (log entry 14): blanks inside them are accepted. -/
def insideParens (cs : List Char) : Option (List Char) :=
  match cs.reverse with
  | ')' :: rev => some (trimBlanks rev.reverse)
  | _ => none

/-- An operand (30_encoding.md R67, R68). -/
def readLiteral (cs : List Char) : Option Literal :=
  match cs with
  | '0' :: 'x' :: ds => (readNat 16 ds).map .num
  | 'H' :: 'Z' :: '(' :: rest => ((insideParens rest).bind readDecimal).map .hz
  | 'B' :: 'A' :: 'U' :: 'D' :: '(' :: rest => ((insideParens rest).bind readDecimal).map .baud
  | ds => (readNat 10 ds).map .num

/-- The mnemonics as written (30_encoding.md R62, R67). -/
def mnemonicNames : List (String × Mnemonic) :=
  [("XTAL.GET", .xtalGet), ("XTAL.SET", .xtalSet), ("FCW.DEC", .fcwDec), ("FCW.ENC", .fcwEnc),
   ("FBW.DEC", .fbwDec), ("FBW.ENC", .fbwEnc), ("SR.DEC", .srDec), ("SR.ENC", .srEnc),
   ("BF.EXT", .bfExt), ("BF.INS", .bfIns)]

/-- The field names as written (30_encoding.md R69). -/
def fieldNames : List (String × FieldName) :=
  [("SR_M", .srM), ("SR_E", .srE), ("FBW_M", .fbwM), ("FBW_E", .fbwE), ("PA_IDX", .paIdx),
   ("HDR_RW", .hdrRw), ("HDR_BURST", .hdrBurst), ("HDR_ADDR", .hdrAddr)]

/-- What a table gives for a name written out as characters. -/
def lookupName {α : Type} (table : List (String × α)) (cs : List Char) : Option α :=
  (table.find? fun row => row.1.toList == cs).map (·.2)

/-- A mnemonic, or `GET.` or `PUT.` and a field name (30_encoding.md R69). -/
def readMnemonic (cs : List Char) : Option Mnemonic :=
  match cs with
  | 'G' :: 'E' :: 'T' :: '.' :: f => (lookupName fieldNames f).map .get
  | 'P' :: 'U' :: 'T' :: '.' :: f => (lookupName fieldNames f).map .put
  | _ => lookupName mnemonicNames cs

/-- All operands, if each can be read. -/
def readLiterals : List (List Char) → Option (List Literal)
  | [] => some []
  | p :: ps =>
    match readLiteral (trimBlanks p), readLiterals ps with
    | some a, some as => some (a :: as)
    | _, _ => none

/-- A line without its comment and outer blanks (30_encoding.md R67). -/
def lineBody (s : String) : List Char := trimBlanks (s.toList.takeWhile (· ≠ ';'))

/-- A source line read from its body. -/
def readBody (body : List Char) : Option AsmLine :=
  let operands := trimBlanks (body.dropWhile fun c => !isBlank c)
  match readMnemonic (body.takeWhile fun c => !isBlank c),
      readLiterals (if operands.isEmpty then [] else splitAtChar ',' operands) with
  | some mn, some args => some ⟨mn, args⟩
  | _, _ => none

/-- The command word of one written line; nothing where the assembler refuses it (30_encoding.md R67). -/
def assembleText (T : FieldTable) (s : String) : Option Word := (readBody (lineBody s)).bind (assemble T)

/-- The command words of a written program, one command a line, lines of blanks and comments left out; nothing if a line
is refused (30_encoding.md R67). DESIGN CHOICE, safe (log entry 14): R67 says only that a refused line produces no word; here
the whole program then has no words. -/
def assembleProgram (T : FieldTable) : List String → Option (List Word)
  | [] => some []
  | s :: rest =>
    if (lineBody s).isEmpty then assembleProgram T rest
    else match assembleText T s, assembleProgram T rest with
      | some w, some ws => some (w :: ws)
      | _, _ => none

end Sys2Proof.Machine
end

