-- ==== Sys2Proof/Machine/Flags.lean ====
section
/-! DEFINITION. Status. The block has no flag register and no operation computes a flag (10_state.md R22): the outcome of
a command is the `status` field of its own response word (30_encoding.md R61). -/

namespace Sys2Proof.Machine

/-- The status code of an error (30_encoding.md R61). -/
def ErrorKind.status : ErrorKind → Byte
  | .domainError => 0x01
  | .illegalCommand => 0x02

/-- The `status` field of a response, bits 63:56 of the response word (30_encoding.md R61). -/
def Response.status : Response → Byte
  | .ok _ => 0x00
  | .error e => e.status

/-- The `pay` field the wires carry, bits 55:0: the result, or all zero on an error (30_encoding.md R61). -/
def Response.wirePay : Response → Pay
  | .ok p => p
  | .error _ => 0

/-- The response word on the wires (30_encoding.md R61). -/
def Response.word (r : Response) : RspWord := joinWord r.status r.wirePay

end Sys2Proof.Machine
end

