-- ==== Sys2Proof/Safety.lean ====
section
/-! DEFINITION. The terms claims are stated in: the legal crystal, the host's discipline, what a command answers, and the
crystal a list of interactions leaves. -/

namespace Sys2Proof.Machine

/-- `XTAL_HZ` holds a legal value: 1 to 2^32 - 1, "Zero is never held" (10_state.md R24). -/
abbrev LegalCrystal (s : State) : Prop := s.xtalHz ≠ 0

/-- The interaction keeps the rule "One command at a time" (70_reset_and_hazards.md R224). -/
def HostEvent.oneAtATime : HostEvent → Bool
  | .overlappingCommands _ _ => false
  | _ => true

/-- Every interaction the host has in mind keeps that rule. -/
abbrev HostWaits (s : State) : Prop := s.port.all HostEvent.oneAtATime = true

/-- The response `exec` gives for an instruction, where it answers a next state. -/
def answerOf (i : Instr) (s : State) : Option Response :=
  match exec i s with
  | .next t => t.response
  | _ => none

/-- The bandwidth of a pair in hertz, `X / (8 * (4 + m) * 2^e)` (41_filter_bandwidth.md R110). -/
def bandwidth (X m e : Nat) : ℚ := X / (8 * (4 + m) * 2 ^ e)

/-- The symbol rate of a pair in baud, `(256 + m) * 2^e * X / 2^28` (42_symbol_rate.md R130). -/
def symbolRate (X m e : Nat) : ℚ := (256 + m) * 2 ^ e * X / 2 ^ 28

/-- The rate of a pair at the crystal of `s`, rounded to a whole number of baud, encodes to the pair again (42_symbol_rate.md
R135). -/
def survivesWholeBaud (s : State) (m : Byte) (e : Exponent) : Bool :=
  answerOf (.srEnc (BitVec.ofNat 56 (roundHalfUp (srDecode s.xtalHz.toNat m.toNat e.toNat) (2 ^ 28) * 2 ^ 28))) s ==
    some (.ok (packPair m e))

/-- A command word is an `XTAL.SET` that succeeds: its frequency (44_config.md R182). -/
def newCrystal (w : Word) : Option Crystal :=
  match decode w with
  | .instr (.xtalSet x) => if x = 0 then none else some x
  | _ => none

/-- The `XTAL_HZ` one interaction leaves: a successful `XTAL.SET` and reset write it, nothing else does (10_state.md R24,
R29, 70_reset_and_hazards.md R220). -/
def crystalAfterEvent (X : Crystal) : HostEvent → Crystal
  | .command w => (newCrystal w).getD X
  | .reset => Config.xtalReset
  | .commandCutByReset _ => Config.xtalReset
  | .overlappingCommands _ _ => X

/-- The `XTAL_HZ` a list of interactions leaves, in order (20_memory.md R47). -/
def crystalAfter (X : Crystal) (events : List HostEvent) : Crystal := events.foldl crystalAfterEvent X

/-- The operand conditions under which an instruction answers DomainError when `XTAL_HZ` is `X`, row by row the table of
60_exceptions.md R191. -/
def domainErrorCause (X : Nat) : Instr → Prop
  | .xtalGet => False
  | .xtalSet x => x = 0
  | .fcwDec _ _ _ => False
  | .fcwEnc h => 2 * h.toNat ≥ (2 ^ 25 - 1) * X
  | .fbwDec m e => m.toNat > 3 ∨ e.toNat > 3
  | .fbwEnc h => h.toNat > X * 2 ^ 11 ∨ h.toNat < (2 * (X * 2 ^ 10) + 7) / 14
  | .srDec _ _ => False
  | .srEnc r => 2 * r.toNat < 511 * X ∨ 2 * r.toNat ≥ (2 ^ 25 - 2 ^ 15) * X
  | .bfExt _ hi lo => hi.toNat < lo.toNat
  | .bfIns _ hi lo value => hi.toNat < lo.toNat ∨ value.toNat ≥ 2 ^ (hi.toNat - lo.toNat + 1)

/-- A command word is one of the ten: an assigned `op` and zeros in every payload bit that 30_encoding.md R63 marks 0, by
the value of the payload. -/
def legalWord (w : Word) : Prop :=
  (opField w = 0x01 ∧ (payField w).toNat = 0) ∨
  (opField w = 0x02 ∧ (payField w).toNat < 2 ^ 32) ∨
  (opField w = 0x10 ∧ (payField w).toNat < 2 ^ 24) ∨
  opField w = 0x11 ∨
  (opField w = 0x20 ∧ (payField w).toNat < 2 ^ 12) ∨
  opField w = 0x21 ∨
  (opField w = 0x30 ∧ (payField w).toNat < 2 ^ 12) ∨
  opField w = 0x31 ∨
  (opField w = 0x40 ∧ (payField w).toNat < 2 ^ 22 ∧ (payField w).toNat / 2 ^ 8 % 2 ^ 8 = 0) ∨
  (opField w = 0x41 ∧ (payField w).toNat < 2 ^ 22)

end Sys2Proof.Machine
end

