-- ==== Sys2Proof/Certificates/Slice0/Obligations.lean ====
section
/-! DEFINITION. The statements for the provers. `X` in a docstring is the value of `XTAL_HZ`. A next state is always given
whole, so each statement of a result is a frame as well: `XTAL_HZ` and what the host presents next are as written there. -/

open Sys2Proof Sys2Proof.Machine

/-! ## Encoding -/

/-- Decoding the command word of any instruction gives it back, every operand at every value (30_encoding.md R63, R70). -/
def Obligations.DecodeOfEncodeIsIdentity : Prop := ∀ i : Instr, decode (encode i) = .instr i

/-- "There are no don't-care bits" (30_encoding.md R63): a word that decodes is the command word of what it decodes to. -/
def Obligations.EncodeOfDecodeIsIdentity : Prop := ∀ (w : Word) (i : Instr), decode w = .instr i → encode i = w

/-- No word matches two rows of the opcode table (30_encoding.md R70). -/
def Obligations.OpcodeRowsNeverOverlap : Prop :=
  opcodeTable.Pairwise fun a b => ∀ w : Word, ¬ (a.hits w = true ∧ b.hits w = true)

/-- One word of each row, written out from spec/opcode_table.json with its operands at values that tell the fields apart. -/
def Obligations.WrittenOutWordsDecode : Prop :=
  decode 0x0100000000000000 = .instr .xtalGet ∧
  decode 0x02000000019BFCC0 = .instr (.xtalSet 27000000) ∧
  decode 0x100000000010B071 = .instr (.fcwDec 0x10 0xB0 0x71) ∧
  decode 0x110019DD18000000 = .instr (.fcwEnc 0x19DD18000000) ∧
  decode 0x2000000000000203 = .instr (.fbwDec 3 2) ∧
  decode 0x210000030D400000 = .instr (.fbwEnc 0x30D400000) ∧
  decode 0x3000000000000C22 = .instr (.srDec 34 12) ∧
  decode 0x31001C16B0000000 = .instr (.srEnc 0x1C16B0000000) ∧
  decode 0x40000000002C008C = .instr (.bfExt 0x8C 5 4) ∧
  decode 0x41000000003E018D = .instr (.bfIns 0x8D 7 6 1)

/-- 30_encoding.md R64 and R65, 60_exceptions.md R192: a word is answered IllegalCommand, with no state changed, exactly when
its `op` is none of the ten codes or a payload bit that R63 marks 0 is set; whatever its operand values, so before any
DomainError (R195). -/
def Obligations.IllegalCommandExactlyOnIllegalWords : Prop :=
  (∀ (s : State) (w : Word) (rest : List HostEvent), s.port = .command w :: rest →
    (¬ legalWord w → step s = .next { s with port := rest, response := some (.error .illegalCommand) }) ∧
    (legalWord w → ∀ t, step s = .next t → t.response ≠ some (.error .illegalCommand))) ∧
  (Response.error .illegalCommand).word = 0x0200000000000000

/-- 30_encoding.md R61: the status of a response word is 0x00, 0x01 or 0x02, its payload is the result when the status is
0x00 and zero otherwise. -/
def Obligations.ResponseWordHasStatusAndPayload : Prop :=
  ∀ r : Response,
    (∀ p, r = .ok p → opField r.word = 0x00 ∧ payField r.word = p) ∧
    (r = .error .domainError → opField r.word = 0x01) ∧
    (r = .error .illegalCommand → opField r.word = 0x02) ∧
    (opField r.word ≠ 0x00 → payField r.word = 0)

/-! ## The step -/

/-- When the word presented next decodes to an instruction, a step takes it from the port and is `exec` of it. -/
def Obligations.StepRunsThePresentedCommand : Prop :=
  ∀ (s : State) (w : Word) (i : Instr) (rest : List HostEvent),
    s.port = .command w :: rest → decode w = .instr i → step s = exec i { s with port := rest }

/-- The command word of any instruction is read back by `decodeTableWord`, and placed by `withFetchWord` it is what the next
step runs (the model's own interface, log entry 1). -/
def Obligations.FetchWordRunsTheInstruction : Prop :=
  ∀ (i : Instr) (s : State),
    decodeTableWord 64 (encode i).toNat = some i ∧ step (s.withFetchWord 64 (encode i).toNat) = exec i s

/-- 10_state.md R28: after reset `XTAL_HZ = 26,000,000`. -/
def Obligations.ResetStateHoldsDefaultCrystal : Prop := State.reset.xtalHz.toNat = 26000000

/-- 70_reset_and_hazards.md R220: reset, between commands or while a command is unanswered, puts `XTAL_HZ` at 26,000,000
whatever it held, and gives no response. That the host's later interactions stay is the model's choice (log entry 6). -/
def Obligations.ResetRestoresDefaultCrystal : Prop :=
  ∀ (s : State) (rest : List HostEvent) (w : Word),
    s.port = .reset :: rest ∨ s.port = .commandCutByReset w :: rest →
      step s = .next { xtalHz := 26000000#32, port := rest, response := none }

/-- 70_reset_and_hazards.md R224: an overlapping command has no step. The fault's name, and the refusal where nothing is
presented, are the model's (log entries 4 and 5). -/
def Obligations.OverlapAndEmptyPortHaveNoStep : Prop :=
  (∀ (s : State) (a b : Word) (rest : List HostEvent),
    s.port = .overlappingCommands a b :: rest → step s = .fault .overlappingCommands) ∧
  (∀ s : State, s.port = [] → step s = .refused .noCommand)

/-- The model's choice of log entry 7: a conversion has no step in a state whose `XTAL_HZ` is zero, a value that "is never
held" (10_state.md R24). -/
def Obligations.ConversionsHaveNoStepAtZeroCrystal : Prop :=
  ∀ (s : State) (i : Instr), s.xtalHz = 0 →
    (exec i s = .fault .zeroCrystal ↔
      (∃ b0 b1 b2, i = .fcwDec b0 b1 b2) ∨ (∃ h, i = .fcwEnc h) ∨ (∃ m e, i = .fbwDec m e) ∨
      (∃ h, i = .fbwEnc h) ∨ (∃ m e, i = .srDec m e) ∨ (∃ r, i = .srEnc r))

/-! ## Configuration -/

/-- 44_config.md R180. -/
def Obligations.XtalGetAnswersTheCrystal : Prop :=
  ∀ s : State,
    (encode .xtalGet).toNat = 0x01 * 2 ^ 56 ∧
    ∃ p : Pay, exec .xtalGet s = .next { s with response := some (.ok p) } ∧ p.toNat = s.xtalHz.toNat

/-- 44_config.md R182: a nonzero frequency is written and answered with payload zero; zero is a DomainError and nothing is
written. -/
def Obligations.XtalSetWritesANonzeroCrystal : Prop :=
  ∀ (x : Crystal) (s : State),
    (encode (.xtalSet x)).toNat = 0x02 * 2 ^ 56 + x.toNat ∧
    (x ≠ 0 → exec (.xtalSet x) s = .next { s with xtalHz := x, response := some (.ok 0) }) ∧
    (x = 0 → exec (.xtalSet x) s = .next { s with response := some (.error .domainError) })

/-! ## Frequency control word -/

/-- 40_fcw.md R90: the answer is `value * X`, not truncated, which is `value * X / 2^16` hertz exactly. -/
def Obligations.FcwDecAnswersTheExactProduct : Prop :=
  ∀ (b0 b1 b2 : Byte) (s : State), LegalCrystal s →
    (encode (.fcwDec b0 b1 b2)).toNat =
      0x10 * 2 ^ 56 + (b0.toNat * 2 ^ 16 + b1.toNat * 2 ^ 8 + b2.toNat) ∧
    ∃ p : Pay, exec (.fcwDec b0 b1 b2) s = .next { s with response := some (.ok p) } ∧
      p.toNat = (b0.toNat * 2 ^ 16 + b1.toNat * 2 ^ 8 + b2.toNat) * s.xtalHz.toNat ∧
      hertzOf p = ((b0.toNat * 2 ^ 16 + b1.toNat * 2 ^ 8 + b2.toNat : ℕ) : ℚ) * s.xtalHz.toNat / 2 ^ 16

/-- 40_fcw.md R91: the control word is `h / X` rounded to the nearest integer, a tie going up, when that is below 2^24, and a
DomainError exactly when `2h ≥ (2^25 - 1) X`. -/
def Obligations.FcwEncAnswersTheNearestWord : Prop :=
  ∀ (h : Pay) (s : State), LegalCrystal s →
    (encode (.fcwEnc h)).toNat = 0x11 * 2 ^ 56 + h.toNat ∧
    (2 * h.toNat < (2 ^ 25 - 1) * s.xtalHz.toNat →
      ∃ p : Pay, exec (.fcwEnc h) s = .next { s with response := some (.ok p) } ∧ p.toNat < 2 ^ 24 ∧
        p.toNat = (2 * h.toNat + s.xtalHz.toNat) / (2 * s.xtalHz.toNat)) ∧
    (2 * h.toNat ≥ (2 ^ 25 - 1) * s.xtalHz.toNat →
      exec (.fcwEnc h) s = .next { s with response := some (.error .domainError) })

/-- 40_fcw.md R92: encode after decode is the identity, at one and the same `XTAL_HZ`. -/
def Obligations.FcwEncodeAfterDecodeIsIdentity : Prop :=
  ∀ (b0 b1 b2 : Byte) (s : State), LegalCrystal s →
    ∃ h : Pay, answerOf (.fcwDec b0 b1 b2) s = some (.ok h) ∧
      answerOf (.fcwEnc h) s = some (.ok (packBytes b0 b1 b2))

/-- 40_fcw.md R93: decoding what `FCW.ENC` answered gives a raw frequency within `X / 2` of the operand, that is within
`X / 2^17` hertz, and at exactly `X / 2` only where the operand is a tie. -/
def Obligations.FcwDecodeAfterEncodeWithinHalfStep : Prop :=
  ∀ (h p : Pay) (s : State), LegalCrystal s → answerOf (.fcwEnc h) s = some (.ok p) →
    ∃ h' : Pay,
      answerOf (.fcwDec (p.extractLsb' 16 8) (p.extractLsb' 8 8) (p.extractLsb' 0 8)) s = some (.ok h') ∧
      2 * |(h'.toNat : ℤ) - h.toNat| ≤ s.xtalHz.toNat ∧
      |hertzOf h' - hertzOf h| ≤ s.xtalHz.toNat / 2 ^ 17 ∧
      (2 * |(h'.toNat : ℤ) - h.toNat| = s.xtalHz.toNat →
        ∃ k : ℕ, 2 * h.toNat = (2 * k + 1) * s.xtalHz.toNat)

/-- 40_fcw.md R94: `FCW.ENC` is monotone, and the operands it accepts are the interval `0 ≤ 2h < (2^25 - 1) X`. -/
def Obligations.FcwEncIsMonotone : Prop :=
  ∀ (s : State), LegalCrystal s →
    (∀ h1 h2 p1 p2 : Pay, h1.toNat ≤ h2.toNat → answerOf (.fcwEnc h1) s = some (.ok p1) →
      answerOf (.fcwEnc h2) s = some (.ok p2) → p1.toNat ≤ p2.toNat) ∧
    (∀ h : Pay, (∃ p, answerOf (.fcwEnc h) s = some (.ok p)) ↔
      2 * h.toNat < (2 ^ 25 - 1) * s.xtalHz.toNat)

/-! ## Filter bandwidth -/

/-- 41_filter_bandwidth.md R110: for `m, e ≤ 3` the answer is `X * 2^(13-e) / (4+m)` rounded to the nearest integer, within
2^-17 hertz of the bandwidth and exact for `m = 0`; otherwise a DomainError. -/
def Obligations.FbwDecAnswersTheRoundedBandwidth : Prop :=
  ∀ (m : Byte) (e : Exponent) (s : State), LegalCrystal s →
    (encode (.fbwDec m e)).toNat = 0x20 * 2 ^ 56 + e.toNat * 2 ^ 8 + m.toNat ∧
    (m.toNat ≤ 3 → e.toNat ≤ 3 →
      ∃ p : Pay, exec (.fbwDec m e) s = .next { s with response := some (.ok p) } ∧
        p.toNat = (2 * (s.xtalHz.toNat * 2 ^ (13 - e.toNat)) + (4 + m.toNat)) / (2 * (4 + m.toNat)) ∧
        |hertzOf p - bandwidth s.xtalHz.toNat m.toNat e.toNat| ≤ 1 / 2 ^ 17 ∧
        (m = 0 → hertzOf p = bandwidth s.xtalHz.toNat m.toNat e.toNat)) ∧
    (m.toNat > 3 ∨ e.toNat > 3 →
      exec (.fbwDec m e) s = .next { s with response := some (.error .domainError) })

/-- 41_filter_bandwidth.md R112: `FBW.DEC` of the sixteen in-bounds pairs, in the order of the table of R112
(`i = 4e + m`), is strictly decreasing, so no two pairs have the same answer. -/
def Obligations.FbwDecStrictlyDecreases : Prop :=
  ∀ (m e m' e' : Nat) (s : State), LegalCrystal s → m ≤ 3 → e ≤ 3 → m' ≤ 3 → e' ≤ 3 →
    4 * e + m < 4 * e' + m' →
    ∃ p p' : Pay,
      answerOf (.fbwDec (BitVec.ofNat 8 m) (BitVec.ofNat 4 e)) s = some (.ok p) ∧
      answerOf (.fbwDec (BitVec.ofNat 8 m') (BitVec.ofNat 4 e')) s = some (.ok p') ∧
      p'.toNat < p.toNat

/-- 41_filter_bandwidth.md R111: inside the span of the sixteen values the answer is the pair whose bandwidth is nearest, the
larger bandwidth where two are equally near; outside it, a DomainError. -/
def Obligations.FbwEncAnswersTheNearestPair : Prop :=
  ∀ (h : Pay) (s : State), LegalCrystal s →
    (encode (.fbwEnc h)).toNat = 0x21 * 2 ^ 56 + h.toNat ∧
    ((2 * (s.xtalHz.toNat * 2 ^ 10) + 7) / 14 ≤ h.toNat → h.toNat ≤ s.xtalHz.toNat * 2 ^ 11 →
      ∃ (m : Byte) (e : Exponent), m.toNat ≤ 3 ∧ e.toNat ≤ 3 ∧
        exec (.fbwEnc h) s = .next { s with response := some (.ok (packPair m e)) } ∧
        (packPair m e).toNat = e.toNat * 2 ^ 8 + m.toNat ∧
        ∀ m' e' : Nat, m' ≤ 3 → e' ≤ 3 →
          |bandwidth s.xtalHz.toNat m.toNat e.toNat - hertzOf h| ≤
            |bandwidth s.xtalHz.toNat m' e' - hertzOf h| ∧
          (|bandwidth s.xtalHz.toNat m.toNat e.toNat - hertzOf h| =
              |bandwidth s.xtalHz.toNat m' e' - hertzOf h| →
            bandwidth s.xtalHz.toNat m' e' ≤ bandwidth s.xtalHz.toNat m.toNat e.toNat)) ∧
    (h.toNat > s.xtalHz.toNat * 2 ^ 11 ∨ h.toNat < (2 * (s.xtalHz.toNat * 2 ^ 10) + 7) / 14 →
      exec (.fbwEnc h) s = .next { s with response := some (.error .domainError) })

/-- 41_filter_bandwidth.md R113: encode after decode reproduces the pair, at every legal crystal. -/
def Obligations.FbwEncodeAfterDecodeIsIdentity : Prop :=
  ∀ (m : Byte) (e : Exponent) (s : State), LegalCrystal s → m.toNat ≤ 3 → e.toNat ≤ 3 →
    ∃ h : Pay, answerOf (.fbwDec m e) s = some (.ok h) ∧ answerOf (.fbwEnc h) s = some (.ok (packPair m e))

/-! ## Symbol rate -/

/-- 42_symbol_rate.md R130: the answer is `(256 + m) * 2^e * X`, not truncated, which is the symbol rate exactly. -/
def Obligations.SrDecAnswersTheExactRate : Prop :=
  ∀ (m : Byte) (e : Exponent) (s : State), LegalCrystal s →
    (encode (.srDec m e)).toNat = 0x30 * 2 ^ 56 + e.toNat * 2 ^ 8 + m.toNat ∧
    ∃ p : Pay, exec (.srDec m e) s = .next { s with response := some (.ok p) } ∧
      p.toNat = (256 + m.toNat) * 2 ^ e.toNat * s.xtalHz.toNat ∧
      baudOf p = symbolRate s.xtalHz.toNat m.toNat e.toNat

/-- 42_symbol_rate.md R131: for `511 X ≤ 2r < (2^25 - 2^15) X` the answer is the pair, of all 4096, whose rate is nearest to
the operand by absolute difference, the larger rate where two are equally near; otherwise a DomainError. -/
def Obligations.SrEncAnswersTheNearestPair : Prop :=
  ∀ (r : Pay) (s : State), LegalCrystal s →
    (encode (.srEnc r)).toNat = 0x31 * 2 ^ 56 + r.toNat ∧
    (511 * s.xtalHz.toNat ≤ 2 * r.toNat → 2 * r.toNat < (2 ^ 25 - 2 ^ 15) * s.xtalHz.toNat →
      ∃ (m : Byte) (e : Exponent),
        exec (.srEnc r) s = .next { s with response := some (.ok (packPair m e)) } ∧
        (packPair m e).toNat = e.toNat * 2 ^ 8 + m.toNat ∧
        ∀ (m' : Byte) (e' : Exponent),
          |symbolRate s.xtalHz.toNat m.toNat e.toNat - baudOf r| ≤
            |symbolRate s.xtalHz.toNat m'.toNat e'.toNat - baudOf r| ∧
          (|symbolRate s.xtalHz.toNat m.toNat e.toNat - baudOf r| =
              |symbolRate s.xtalHz.toNat m'.toNat e'.toNat - baudOf r| →
            symbolRate s.xtalHz.toNat m'.toNat e'.toNat ≤ symbolRate s.xtalHz.toNat m.toNat e.toNat)) ∧
    (2 * r.toNat < 511 * s.xtalHz.toNat ∨ 2 * r.toNat ≥ (2 ^ 25 - 2 ^ 15) * s.xtalHz.toNat →
      exec (.srEnc r) s = .next { s with response := some (.error .domainError) })

/-- 42_symbol_rate.md R132, the carry policy: where `256 * 2^e ≤ r / X < 512 * 2^e` and the mantissa computed at `e` rounds to
256 (`M = 512`), the answer is `(0, e + 1)`; at `e = 15` it is a DomainError. -/
def Obligations.SrEncCarriesIntoTheExponent : Prop :=
  ∀ (r : Pay) (e : Nat) (s : State), LegalCrystal s → e ≤ 15 →
    256 * 2 ^ e * s.xtalHz.toNat ≤ r.toNat → r.toNat < 512 * 2 ^ e * s.xtalHz.toNat →
    (2 * r.toNat + s.xtalHz.toNat * 2 ^ e) / (2 * (s.xtalHz.toNat * 2 ^ e)) = 512 →
    (e < 15 →
      exec (.srEnc r) s = .next { s with response := some (.ok (packPair 0 (BitVec.ofNat 4 (e + 1)))) }) ∧
    (e = 15 → exec (.srEnc r) s = .next { s with response := some (.error .domainError) })

/-- 42_symbol_rate.md R133: encode after decode is the identity for all 4096 pairs, at every legal crystal. -/
def Obligations.SrEncodeAfterDecodeIsIdentity : Prop :=
  ∀ (m : Byte) (e : Exponent) (s : State), LegalCrystal s →
    ∃ r : Pay, answerOf (.srDec m e) s = some (.ok r) ∧ answerOf (.srEnc r) s = some (.ok (packPair m e))

/-- 42_symbol_rate.md R134, first sentence: no two of the 4096 pairs have the same rate. -/
def Obligations.SrPairsHaveDistinctRates : Prop :=
  ∀ (m m' : Byte) (e e' : Exponent) (s : State), LegalCrystal s →
    answerOf (.srDec m e) s = answerOf (.srDec m' e') s → m = m' ∧ e = e'

/-- What becomes of a raw rate less than half the spacing of a pair's exponent away from the pair, the case of
42_symbol_rate.md R135's half-spacing sentence: it encodes to the pair, as the sentence says, except more than a quarter of the
spacing below a pair with `m = 0`, `e > 0`, where it encodes to `(255, e - 1)`. The exception is R131's: it contradicts the
sentence as worded, which asks two pairs of some rates, and the model follows R131 (log entry 15). -/
def Obligations.RateWithinHalfSpacingEncodesToPairOrLowerNeighbour : Prop :=
  ∀ (m : Byte) (e : Exponent) (r : Pay) (s : State), LegalCrystal s →
    2 * |(r.toNat : ℤ) - ((256 + m.toNat) * 2 ^ e.toNat * s.xtalHz.toNat : ℕ)| <
      (2 ^ e.toNat * s.xtalHz.toNat : ℕ) →
    answerOf (.srEnc r) s = some (.ok
      (if m = 0 ∧ e ≠ 0 ∧ 4 * r.toNat + 2 ^ e.toNat * s.xtalHz.toNat < 4 * (256 * 2 ^ e.toNat * s.xtalHz.toNat) then
        packPair 255 (e - 1)
      else packPair m e))

/-- The part of that case in which R135's sentence and R131 agree (log entry 15): below a pair with `m = 0` and `e > 0` the rounding must stay
within a quarter of the spacing. -/
def Obligations.RoundedRateSurvivesAwayFromLowerEdge : Prop :=
  ∀ (m : Byte) (e : Exponent) (r : Pay) (s : State), LegalCrystal s →
    2 * |(r.toNat : ℤ) - ((256 + m.toNat) * 2 ^ e.toNat * s.xtalHz.toNat : ℕ)| <
      (2 ^ e.toNat * s.xtalHz.toNat : ℕ) →
    (m = 0 → e ≠ 0 →
      4 * (256 * 2 ^ e.toNat * s.xtalHz.toNat) ≤ 4 * r.toNat + 2 ^ e.toNat * s.xtalHz.toNat) →
    answerOf (.srEnc r) s = some (.ok (packPair m e))

/-- Exactly which raw rates encode to a pair, as R131 gives it: from the midpoint to the next lower rate (which is a quarter of
the pair's spacing below for `m = 0`, `e > 0`, and half a spacing below otherwise) up to, not including, half a spacing above.
So R135's "is reproduced" and its "may not be otherwise" hold with half the spacing everywhere but below a pair with `m = 0` and
`e > 0` (log entry 15). -/
def Obligations.SrEncReproducesExactlyTheNearRates : Prop :=
  ∀ (m : Byte) (e : Exponent) (r : Pay) (s : State), LegalCrystal s →
    (answerOf (.srEnc r) s = some (.ok (packPair m e)) ↔
      4 * ((256 + m.toNat) * 2 ^ e.toNat * s.xtalHz.toNat) ≤
          4 * r.toNat + (if m = 0 ∧ e ≠ 0 then 1 else 2) * (2 ^ e.toNat * s.xtalHz.toNat) ∧
        4 * r.toNat <
          4 * ((256 + m.toNat) * 2 ^ e.toNat * s.xtalHz.toNat) + 2 * (2 ^ e.toNat * s.xtalHz.toNat))

/-- 42_symbol_rate.md R135, the sentence on whole numbers of baud: at `X = 26,000,000` every pair with `e ≥ 4` is reproduced
from its rate rounded to a whole number of baud either way (`|v' - v| ≤ 1/2`), and 231, 206, 157 and 58 of the 256 pairs with
`e = 0, 1, 2, 3` are not reproduced from the nearest whole number. -/
def Obligations.WholeBaudRoundingAtDefaultCrystal : Prop :=
  (∀ (m : Byte) (e : Exponent) (n : Nat) (s : State), s.xtalHz.toNat = 26000000 → 4 ≤ e.toNat →
    |(n : ℚ) - symbolRate 26000000 m.toNat e.toNat| ≤ 1 / 2 →
      n * 2 ^ 28 < 2 ^ 56 ∧ answerOf (.srEnc (BitVec.ofNat 56 (n * 2 ^ 28))) s = some (.ok (packPair m e))) ∧
  (List.range 4).map (fun e => (List.range 256).countP fun m =>
    !survivesWholeBaud State.reset (BitVec.ofNat 8 m) (BitVec.ofNat 4 e)) = [231, 206, 157, 58]

/-! ## Bit-fields -/

/-- 43_bitfield.md R160: the field `byte[hi:lo]` right-aligned and zero-extended; a DomainError when `hi < lo`. -/
def Obligations.BfExtAnswersTheField : Prop :=
  ∀ (byte : Byte) (hi lo : BitIndex) (s : State),
    (encode (.bfExt byte hi lo)).toNat =
      0x40 * 2 ^ 56 + hi.toNat * 2 ^ 19 + lo.toNat * 2 ^ 16 + byte.toNat ∧
    (lo.toNat ≤ hi.toNat →
      ∃ p : Pay, exec (.bfExt byte hi lo) s = .next { s with response := some (.ok p) } ∧
        p.toNat = byte.toNat / 2 ^ lo.toNat % 2 ^ (hi.toNat - lo.toNat + 1)) ∧
    (hi.toNat < lo.toNat → exec (.bfExt byte hi lo) s = .next { s with response := some (.error .domainError) })

/-- 43_bitfield.md R161: bits `lo..hi` of the answer are the value's, every other bit of the byte is kept; a DomainError when
`hi < lo` or the value needs more than `hi - lo + 1` bits. -/
def Obligations.BfInsWritesTheFieldOnly : Prop :=
  ∀ (byte : Byte) (hi lo : BitIndex) (value : Byte) (s : State),
    (encode (.bfIns byte hi lo value)).toNat =
      0x41 * 2 ^ 56 + hi.toNat * 2 ^ 19 + lo.toNat * 2 ^ 16 + value.toNat * 2 ^ 8 + byte.toNat ∧
    (lo.toNat ≤ hi.toNat → value.toNat < 2 ^ (hi.toNat - lo.toNat + 1) →
      ∃ p : Pay, exec (.bfIns byte hi lo value) s = .next { s with response := some (.ok p) } ∧
        p.toNat < 2 ^ 8 ∧
        ∀ k : Nat, k < 8 →
          p.getLsbD k =
            if lo.toNat ≤ k ∧ k ≤ hi.toNat then value.getLsbD (k - lo.toNat) else byte.getLsbD k) ∧
    (hi.toNat < lo.toNat ∨ value.toNat ≥ 2 ^ (hi.toNat - lo.toNat + 1) →
      exec (.bfIns byte hi lo value) s = .next { s with response := some (.error .domainError) })

/-- 43_bitfield.md R162, the five laws: read back, preservation, no-op, last write wins, disjoint inserts commute. -/
def Obligations.BitFieldLawsHold : Prop :=
  ∀ (b v v2 : Byte) (hi lo hi2 lo2 : BitIndex) (s : State),
    lo.toNat ≤ hi.toNat → v.toNat < 2 ^ (hi.toNat - lo.toNat + 1) → lo2.toNat ≤ hi2.toNat →
    ∃ n : Byte, answerOf (.bfIns b hi lo v) s = some (.ok (n.setWidth 56)) ∧
      answerOf (.bfExt n hi lo) s = some (.ok (v.setWidth 56)) ∧
      (hi.toNat < lo2.toNat ∨ hi2.toNat < lo.toNat →
        answerOf (.bfExt n hi2 lo2) s = answerOf (.bfExt b hi2 lo2) s) ∧
      (∃ f : Byte, answerOf (.bfExt b hi lo) s = some (.ok (f.setWidth 56)) ∧
        answerOf (.bfIns b hi lo f) s = some (.ok (b.setWidth 56))) ∧
      (v2.toNat < 2 ^ (hi.toNat - lo.toNat + 1) →
        answerOf (.bfIns n hi lo v2) s = answerOf (.bfIns b hi lo v2) s) ∧
      (hi.toNat < lo2.toNat ∨ hi2.toNat < lo.toNat → v2.toNat < 2 ^ (hi2.toNat - lo2.toNat + 1) →
        ∃ n2 : Byte, answerOf (.bfIns b hi2 lo2 v2) s = some (.ok (n2.setWidth 56)) ∧
          answerOf (.bfIns n hi2 lo2 v2) s = answerOf (.bfIns n2 hi lo v) s)

/-! ## Exceptions and the whole machine -/

/-- 60_exceptions.md R191: DomainError is raised exactly in the cases of its table, with response `0x01` and a zero payload,
and writes no state. -/
def Obligations.DomainErrorExactlyWhenTabled : Prop :=
  (∀ (i : Instr) (s : State), LegalCrystal s →
    (domainErrorCause s.xtalHz.toNat i →
      exec i s = .next { s with response := some (.error .domainError) }) ∧
    (¬ domainErrorCause s.xtalHz.toNat i →
      ∃ (t : State) (p : Pay), exec i s = .next t ∧ t.response = some (.ok p))) ∧
  (Response.error .domainError).word = 0x0100000000000000

/-- What one instruction leaves unchanged: what the host presents next always, and `XTAL_HZ` unless it is an `XTAL.SET` of a
nonzero frequency (10_state.md R23, R24). It always leaves a response. -/
def Obligations.InstructionFrame : Prop :=
  ∀ (i : Instr) (s t : State), exec i s = .next t →
    t.port = s.port ∧ (∃ r, t.response = some r) ∧
    (t.xtalHz = s.xtalHz ∨ ∃ x : Crystal, i = .xtalSet x ∧ x ≠ 0 ∧ t.xtalHz = x)

/-- 60_exceptions.md R190: every command, any 64-bit word, ends in a response, OK or one of the two errors; only `XTAL.SET`
writes `XTAL_HZ`, and an error changes nothing. -/
def Obligations.EveryCommandIsAnswered : Prop :=
  ∀ (s : State) (w : Word) (rest : List HostEvent), LegalCrystal s → s.port = .command w :: rest →
    ∃ (t : State) (r : Response), step s = .next t ∧ t.port = rest ∧ t.response = some r ∧
      ((∃ p, r = .ok p) ∨ r = .error .domainError ∨ r = .error .illegalCommand) ∧
      ((∃ e, r = .error e) → t.xtalHz = s.xtalHz) ∧
      ((∀ x, decode w ≠ .instr (.xtalSet x)) → t.xtalHz = s.xtalHz)

/-- A legal crystal stays legal over every step, from every state (10_state.md R24, "Zero is never held"). -/
def Obligations.StepKeepsTheCrystalLegal : Prop :=
  ∀ s t : State, LegalCrystal s → step s = .next t → LegalCrystal t

/-- The crystal right after reset is legal (10_state.md R24, R28). -/
def Obligations.ResetCrystalIsLegal : Prop := LegalCrystal State.reset

/-- `XTAL_HZ` changes in a step only by a successful `XTAL.SET` or by reset (10_state.md R24). -/
def Obligations.CrystalWrittenOnlyBySetOrReset : Prop :=
  ∀ s t : State, step s = .next t → t.xtalHz ≠ s.xtalHz →
    (∃ (w : Word) (x : Crystal) (rest : List HostEvent), s.port = .command w :: rest ∧
      decode w = .instr (.xtalSet x) ∧ x ≠ 0 ∧ t.xtalHz = x ∧ t.response = some (.ok 0)) ∨
    ((∃ rest, s.port = .reset :: rest) ∨ (∃ w rest, s.port = .commandCutByReset w :: rest)) ∧
      t.xtalHz = 26000000#32

/-- 10_state.md R29: the response to a command and the next `XTAL_HZ` are functions of the command and the `XTAL_HZ` it finds;
the next `XTAL_HZ` is the same unless the command is an `XTAL.SET` that succeeds. -/
def Obligations.ResponseDependsOnCommandAndCrystal : Prop :=
  ∀ (s t : State) (w : Word) (rs rt : List HostEvent), LegalCrystal s →
    s.port = .command w :: rs → t.port = .command w :: rt → s.xtalHz = t.xtalHz →
    ∃ s' t' : State, step s = .next s' ∧ step t = .next t' ∧ (∃ r, s'.response = some r) ∧
      s'.response = t'.response ∧ s'.xtalHz = t'.xtalHz ∧ s'.xtalHz = (newCrystal w).getD s.xtalHz

/-- The block does not remember a response (10_state.md R30): what the response port carried changes no step. The field that
holds it is the model's own (log entry 2). -/
def Obligations.ResponseIsNeverRead : Prop :=
  ∀ (s : State) (r : Option Response), step { s with response := r } = step s

/-- 60_exceptions.md R196: "the failing command has no effect at all, every earlier command had its full effect, and the next
command executes as if the failing one had not been issued". -/
def Obligations.ErrorLeavesNoTrace : Prop :=
  ∀ (s t : State) (e : ErrorKind), step s = .next t → t.response = some (.error e) →
    t = { s with port := s.port.tail, response := some (.error e) } ∧
    step t = step { s with port := s.port.tail }

/-- The block serves a whole list of interactions and never stops in it (60_exceptions.md R190, R206): from every legal state,
if the host waits for each response, as many steps as there are interactions answer a next state, with none left. -/
def Obligations.RunServesEveryInteraction : Prop :=
  ∀ s : State, LegalCrystal s → HostWaits s →
    ∃ t : State, core.run s.port.length s = .next t ∧ t.port = [] ∧ LegalCrystal t ∧
      t.xtalHz = crystalAfter s.xtalHz s.port

/-- 20_memory.md R47: after any earlier interactions a command is answered with the `XTAL_HZ` left by the latest earlier
successful `XTAL.SET`, or the reset value if a reset came later, or the value the state began with; whatever the host presents after it. -/
def Obligations.CommandUsesTheLatestCrystal : Prop :=
  ∀ (s : State) (earlier later : List HostEvent) (i : Instr), LegalCrystal s →
    earlier.all HostEvent.oneAtATime = true → s.port = earlier ++ .command (encode i) :: later →
    ∃ (t : State) (r : Response), core.run (earlier.length + 1) s = .next t ∧ t.response = some r ∧
      answerOf i { s with xtalHz := crystalAfter s.xtalHz earlier } = some r

/-! ## The assembler -/

/-- 30_encoding.md R67: each line with unsigned operands gives the command word with every operand in the field of its name,
and a line with an operand that does not fit its field gives no word; a value the operation itself rejects is not
refused. -/
def Obligations.AssemblerPlacesOrRefuses : Prop :=
  ∀ T : FieldTable,
    (assemble T ⟨.xtalGet, []⟩ = some (encode .xtalGet)) ∧
    (∀ x : Nat, assemble T ⟨.xtalSet, [.num x]⟩ =
      if x < 2 ^ 32 then some (encode (.xtalSet (BitVec.ofNat 32 x))) else none) ∧
    (∀ b0 b1 b2 : Nat, assemble T ⟨.fcwDec, [.num b0, .num b1, .num b2]⟩ =
      if b0 < 2 ^ 8 ∧ b1 < 2 ^ 8 ∧ b2 < 2 ^ 8 then
        some (encode (.fcwDec (BitVec.ofNat 8 b0) (BitVec.ofNat 8 b1) (BitVec.ofNat 8 b2))) else none) ∧
    (∀ h : Nat, assemble T ⟨.fcwEnc, [.num h]⟩ =
      if h < 2 ^ 56 then some (encode (.fcwEnc (BitVec.ofNat 56 h))) else none) ∧
    (∀ m e : Nat, assemble T ⟨.fbwDec, [.num m, .num e]⟩ =
      if m < 2 ^ 8 ∧ e < 2 ^ 4 then some (encode (.fbwDec (BitVec.ofNat 8 m) (BitVec.ofNat 4 e))) else none) ∧
    (∀ h : Nat, assemble T ⟨.fbwEnc, [.num h]⟩ =
      if h < 2 ^ 56 then some (encode (.fbwEnc (BitVec.ofNat 56 h))) else none) ∧
    (∀ m e : Nat, assemble T ⟨.srDec, [.num m, .num e]⟩ =
      if m < 2 ^ 8 ∧ e < 2 ^ 4 then some (encode (.srDec (BitVec.ofNat 8 m) (BitVec.ofNat 4 e))) else none) ∧
    (∀ r : Nat, assemble T ⟨.srEnc, [.num r]⟩ =
      if r < 2 ^ 56 then some (encode (.srEnc (BitVec.ofNat 56 r))) else none) ∧
    (∀ byte hi lo : Nat, assemble T ⟨.bfExt, [.num byte, .num hi, .num lo]⟩ =
      if byte < 2 ^ 8 ∧ hi < 2 ^ 3 ∧ lo < 2 ^ 3 then
        some (encode (.bfExt (BitVec.ofNat 8 byte) (BitVec.ofNat 3 hi) (BitVec.ofNat 3 lo))) else none) ∧
    (∀ byte hi lo value : Nat, assemble T ⟨.bfIns, [.num byte, .num hi, .num lo, .num value]⟩ =
      if byte < 2 ^ 8 ∧ hi < 2 ^ 3 ∧ lo < 2 ^ 3 ∧ value < 2 ^ 8 then
        some (encode (.bfIns (BitVec.ofNat 8 byte) (BitVec.ofNat 3 hi) (BitVec.ofNat 3 lo) (BitVec.ofNat 8 value)))
      else none)

/-- 30_encoding.md R68: a literal helper gives `n` exactly when `n` is `d * 2^frac` as a rational number and fits 56 bits. -/
def Obligations.LiteralHelpersAreExact : Prop :=
  ∀ (d : Decimal) (n : Nat),
    ((Literal.hz d).value = some n ↔ (n : ℚ) = d.digits / 10 ^ d.places * 2 ^ 16 ∧ n < 2 ^ 56) ∧
    ((Literal.baud d).value = some n ↔ (n : ℚ) = d.digits / 10 ^ d.places * 2 ^ 28 ∧ n < 2 ^ 56)

/-- 30_encoding.md R69: for every row of a `FIELDS` table, `GET.F` and `PUT.F` are `BF.EXT` and `BF.INS` with the row's high
and low bit. -/
def Obligations.PseudoInstructionsSubstitute : Prop :=
  ∀ (T : FieldTable) (row : FieldRow) (byte value : Literal), fieldRow T row.field = some row →
    assemble T ⟨.get row.field, [byte]⟩ =
      assemble T ⟨.bfExt, [byte, .num row.hi.toNat, .num row.lo.toNat]⟩ ∧
    assemble T ⟨.put row.field, [byte, value]⟩ =
      assemble T ⟨.bfIns, [byte, .num row.hi.toNat, .num row.lo.toNat, value]⟩
end

