-- ==== Sys2Proof/Laws/State.lean ====
section
/-! SUPPORT. One lemma per field of State per update. -/

namespace Sys2Proof.Machine

@[simp] theorem answer_xtalHz (s : State) (r : Response) : (s.answer r).xtalHz = s.xtalHz := rfl
@[simp] theorem answer_port (s : State) (r : Response) : (s.answer r).port = s.port := rfl
@[simp] theorem answer_response (s : State) (r : Response) : (s.answer r).response = some r := rfl

@[simp] theorem setCrystal_xtalHz (s : State) (x : Crystal) : (s.setCrystal x).xtalHz = x := rfl
@[simp] theorem setCrystal_port (s : State) (x : Crystal) : (s.setCrystal x).port = s.port := rfl
@[simp] theorem setCrystal_response (s : State) (x : Crystal) : (s.setCrystal x).response = s.response := rfl

@[simp] theorem reset_xtalHz : State.reset.xtalHz = Config.xtalReset := rfl
@[simp] theorem reset_port : State.reset.port = [] := rfl
@[simp] theorem reset_response : State.reset.response = none := rfl

@[simp] theorem presentNext_xtalHz (s : State) (n w : Nat) : (s.presentNext n w).xtalHz = s.xtalHz := rfl
@[simp] theorem presentNext_port (s : State) (n w : Nat) :
    (s.presentNext n w).port = .command (BitVec.ofNat 64 (w % 2 ^ n)) :: s.port := rfl
@[simp] theorem presentNext_response (s : State) (n w : Nat) : (s.presentNext n w).response = s.response := rfl

@[simp] theorem withProgram_xtalHz (s : State) (ws : List Word) : (s.withProgram ws).xtalHz = s.xtalHz := rfl
@[simp] theorem withProgram_port (s : State) (ws : List Word) : (s.withProgram ws).port = ws.map .command := rfl
@[simp] theorem withProgram_response (s : State) (ws : List Word) : (s.withProgram ws).response = s.response := rfl

/-- A second answer replaces the first: the block does not remember a response (10_state.md R30). -/
@[simp] theorem answer_answer (s : State) (r r' : Response) : (s.answer r).answer r' = s.answer r' := rfl

end Sys2Proof.Machine
end

