-- ==== Sys2Proof/Laws/Ops.lean ====
section
/-! SUPPORT. What each shared operation can do, once. -/

namespace Sys2Proof.Machine

theorem respond_eq (p : Pay) (s : State) : respond p s = .next { s with response := some (.ok p) } := rfl

theorem raise_eq (e : ErrorKind) (s : State) : raise e s = .next { s with response := some (.error e) } := rfl

theorem resetBlock_eq (s : State) :
    resetBlock s = .next { xtalHz := Config.xtalReset, port := s.port, response := none } := rfl

@[simp] theorem respondOrRaise_some (p : Pay) (s : State) : respondOrRaise (some p) s = respond p s := rfl
@[simp] theorem respondOrRaise_none (s : State) : respondOrRaise none s = raise .domainError s := rfl

/-- With a legal crystal a conversion ends with what it computes for it. -/
theorem convert_legal (f : Nat → Option Pay) {s : State} (hX : s.xtalHz ≠ 0) :
    convert f s = respondOrRaise (f s.xtalHz.toNat) s := if_neg hX

/-- With a zero crystal a conversion has no step. -/
theorem convert_zero (f : Nat → Option Pay) {s : State} (hX : s.xtalHz = 0) :
    convert f s = .fault .zeroCrystal := if_pos hX

/-- A conversion that answers a next state found a legal crystal and wrote the response only. -/
theorem convert_next {f : Nat → Option Pay} {s t : State} (h : convert f s = .next t) :
    s.xtalHz ≠ 0 ∧
    ((∃ p, f s.xtalHz.toNat = some p ∧ t = s.answer (.ok p)) ∨
     (f s.xtalHz.toNat = none ∧ t = s.answer (.error .domainError))) := by
  by_cases hX : s.xtalHz = 0
  · rw [convert_zero f hX] at h; cases h
  · rw [convert_legal f hX] at h
    refine ⟨hX, ?_⟩
    cases hf : f s.xtalHz.toNat with
    | none => rw [hf] at h; exact .inr ⟨rfl, by cases h; rfl⟩
    | some p => rw [hf] at h; exact .inl ⟨p, rfl, by cases h; rfl⟩

/-- The crystal as a natural number is positive exactly when it is legal. -/
theorem crystal_pos {s : State} (hX : s.xtalHz ≠ 0) : 0 < s.xtalHz.toNat :=
  Nat.pos_of_ne_zero fun h => hX (BitVec.eq_of_toNat_eq (by simpa using h))

/-- `roundHalfUp a b` is the one `n` with `(2n - 1) * b ≤ 2a < (2n + 1) * b`. -/
theorem roundHalfUp_eq_iff {a b n : Nat} (hb : 0 < b) :
    roundHalfUp a b = n ↔ 2 * n * b ≤ 2 * a + b ∧ 2 * a < (2 * n + 1) * b := by
  have h2 : 0 < 2 * b := by omega
  have e1 : n * (2 * b) = 2 * n * b := by ring
  have e2 : (2 * n + 1) * b = 2 * n * b + b := by ring
  rw [roundHalfUp, Nat.div_eq_iff h2]
  omega

/-- Rounding is monotone. -/
theorem roundHalfUp_mono {a a' : Nat} (b : Nat) (h : a ≤ a') : roundHalfUp a b ≤ roundHalfUp a' b :=
  Nat.div_le_div_right (by omega)

/-- A multiple rounds to its factor. -/
theorem roundHalfUp_mul (n : Nat) {b : Nat} (hb : 0 < b) : roundHalfUp (n * b) b = n := by
  rw [roundHalfUp_eq_iff hb]
  constructor
  · have : 2 * n * b = 2 * (n * b) := by ring
    omega
  · have : (2 * n + 1) * b = 2 * (n * b) + b := by ring
    omega

end Sys2Proof.Machine
end

