-- ==== Sys2Proof/Laws/Conversions.lean ====
section
/-! SUPPORT. The conversions at this hardware's parameters: each definition that reads Config, in the numbers that the rules
print. -/

namespace Sys2Proof.Machine

@[simp] theorem roundNearest_tie (a b : Nat) : roundNearest Config.tie a b = roundHalfUp a b := rfl
@[simp] theorem goesBelow_tie (a b : Nat) : goesBelow Config.tie a b = decide (a < b) := rfl

@[simp] theorem fcwStep_eq (X : Nat) : fcwStep X = X := Nat.mul_one X
@[simp] theorem srStep_eq (X : Nat) : srStep X = X := Nat.mul_one X

theorem fcwDecode_eq (X value : Nat) : fcwDecode X value = value * X := by rw [fcwDecode, fcwStep_eq]

/-- 40_fcw.md R91 as printed. -/
theorem fcwEncode_eq (X h : Nat) :
    fcwEncode X h = if 2 ^ 24 ≤ roundHalfUp h X then none else some (roundHalfUp h X) := by
  simp only [fcwEncode, fcwStep_eq, roundNearest_tie, Config.fcwW]

theorem fbwK_eq (p : Nat × Nat) : fbwK p = (4 + p.1) * 2 ^ p.2 := rfl

/-- 41_filter_bandwidth.md R110 as printed. -/
theorem fbwDecode_eq (X m e : Nat) : fbwDecode X m e = roundHalfUp (X * 2 ^ (13 - e)) (4 + m) := rfl

@[simp] theorem fbwInBounds_iff (m e : Nat) : fbwInBounds m e = true ↔ m ≤ 3 ∧ e ≤ 3 := by
  rw [fbwInBounds, Bool.and_eq_true, decide_eq_true_iff, decide_eq_true_iff]
  exact and_congr Nat.lt_succ_iff Nat.lt_succ_iff

/-- The sixteen pairs of 41_filter_bandwidth.md R112, in the order of its table. -/
theorem fbwPairs_eq : fbwPairs =
    [(0, 0), (1, 0), (2, 0), (3, 0), (0, 1), (1, 1), (2, 1), (3, 1),
     (0, 2), (1, 2), (2, 2), (3, 2), (0, 3), (1, 3), (2, 3), (3, 3)] := by decide

/-- One turn of the loop of 41_filter_bandwidth.md R111. -/
theorem fbwSearch_cons (X h : Nat) (p q : Nat × Nat) (rest : List (Nat × Nat)) :
    fbwSearch X h (p :: q :: rest) =
      if X * 2 ^ 12 * (fbwK p + fbwK q) ≤ h * fbwK p * fbwK q then p else fbwSearch X h (q :: rest) := by
  simp only [fbwSearch, goesBelow_tie, Config.hzFrac, decide_eq_true_eq, ← Nat.not_lt, ite_not]

theorem fbwEncode_eq (X h : Nat) :
    fbwEncode X h =
      if h > fbwDecode X 0 0 ∨ h < fbwDecode X 3 3 then none else some (fbwSearch X h fbwPairs) := rfl

theorem srN_eq (m e : Nat) : srN m e = (256 + m) * 2 ^ e := rfl

theorem srDecode_eq (X m e : Nat) : srDecode X m e = (256 + m) * 2 ^ e * X := by
  rw [srDecode, srStep_eq, srN_eq]

/-- One turn of the loop of 42_symbol_rate.md R131. -/
theorem srSearch_succ (X r steps e : Nat) :
    srSearch X r (steps + 1) e = if 512 * 2 ^ e * X ≤ r then srSearch X r steps (e + 1) else e := rfl

theorem srCarry_eq (M e : Nat) :
    srCarry M e = if M = 512 then (if e + 1 = 16 then none else some (0, e + 1)) else some (M - 256, e) := rfl

/-- 42_symbol_rate.md R131 as printed. -/
theorem srEncode_eq (X r : Nat) :
    srEncode X r =
      if 2 * r < 511 * X then none
      else if srSearch X r 16 0 = 16 then none
      else srCarry (roundHalfUp r (X * 2 ^ srSearch X r 16 0)) (srSearch X r 16 0) := by
  simp only [srEncode, srStep_eq, roundNearest_tie, goesBelow_tie, Config.srMW, Config.srEW, decide_eq_true_eq]
  norm_num

end Sys2Proof.Machine
end

