-- ==== Sys2Proof/Laws/Decode.lean ====
section
/-! SUPPORT. The fields of a word put together from its fields, and what matching a row says. -/

namespace Sys2Proof

theorem joinWord_getLsbD (top : Byte) (pay : Pay) (k : Nat) :
    (joinWord top pay).getLsbD k = if k < 56 then pay.getLsbD k else top.getLsbD (k - 56) :=
  BitVec.getLsbD_append

@[simp] theorem opField_joinWord (top : Byte) (pay : Pay) : opField (joinWord top pay) = top := by
  apply BitVec.eq_of_getLsbD_eq
  intro k hk
  simp [opField, joinWord_getLsbD, hk]

@[simp] theorem payField_joinWord (top : Byte) (pay : Pay) : payField (joinWord top pay) = pay := by
  apply BitVec.eq_of_getLsbD_eq
  intro k hk
  simp [payField, joinWord_getLsbD, hk]

/-- A word is its two fields. -/
theorem joinWord_fields (w : Word) : joinWord (opField w) (payField w) = w := by
  apply BitVec.eq_of_getLsbD_eq
  intro k hk
  rw [joinWord_getLsbD]
  split
  · simp [payField, *]
  · have : 56 + (k - 56) = k := by omega
    have h8 : k - 56 < 8 := by omega
    simp [opField, h8, this]

/-- The number a word is. -/
theorem joinWord_toNat (top : Byte) (pay : Pay) :
    (joinWord top pay).toNat = top.toNat * 2 ^ 56 + pay.toNat := by
  have h : (joinWord top pay).toNat = top.toNat <<< 56 ||| pay.toNat := BitVec.toNat_append top pay
  rw [h, ← Nat.shiftLeft_add_eq_or_of_lt pay.isLt, Nat.shiftLeft_eq]

/-- A bit of a payload field. -/
theorem payAt_getLsbD {n : Nat} (v : BitVec n) (a k : Nat) :
    (payAt v a).getLsbD k = (decide (k < 56) && !decide (k < a) && v.getLsbD (k - a)) := by
  simp only [payAt, BitVec.getLsbD_shiftLeft, BitVec.getLsbD_setWidth]
  by_cases h : k < 56
  · have : k - a < 56 := by omega
    simp [h, this]
  · simp [h]

/-- A bit of a payload field, as an element. -/
theorem payAt_getElem {n : Nat} (v : BitVec n) (a k : Nat) (hk : k < 56) :
    (payAt v a)[k] = (!decide (k < a) && v.getLsbD (k - a)) := by
  rw [← BitVec.getLsbD_eq_getElem, payAt_getLsbD]
  simp [hk]

/-- The number a payload field is, where it fits the payload. -/
theorem payAt_toNat {n : Nat} (v : BitVec n) (a : Nat) (h : n + a ≤ 56) : (payAt v a).toNat = v.toNat * 2 ^ a := by
  have hv : v.toNat < 2 ^ n := v.isLt
  have h1 : v.toNat * 2 ^ a < 2 ^ 56 := calc
    v.toNat * 2 ^ a < 2 ^ n * 2 ^ a := Nat.mul_lt_mul_of_pos_right hv (Nat.two_pow_pos a)
    _ = 2 ^ (n + a) := (Nat.pow_add 2 n a).symm
    _ ≤ 2 ^ 56 := Nat.pow_le_pow_right (by norm_num) h
  have h2 : v.toNat < 2 ^ 56 := lt_of_lt_of_le hv (Nat.pow_le_pow_right (by norm_num) (by omega))
  simp only [payAt, BitVec.toNat_shiftLeft, BitVec.toNat_setWidth, Nat.shiftLeft_eq]
  rw [Nat.mod_eq_of_lt h2, Nat.mod_eq_of_lt h1]

/-- Two payloads, the lower one below bit `a` and the upper one a multiple of `2^a`, are joined by adding them. -/
theorem or_toNat_of_lt {p q : Pay} {a x : Nat} (hp : p.toNat = x * 2 ^ a) (hq : q.toNat < 2 ^ a) :
    (p ||| q).toNat = p.toNat + q.toNat := by
  rw [BitVec.toNat_or, hp, ← Nat.shiftLeft_eq, Nat.shiftLeft_add_eq_or_of_lt hq]

/-- Masking a word masks its two fields. -/
theorem joinWord_and (a b : Byte) (p q : Pay) :
    joinWord a p &&& joinWord b q = joinWord (a &&& b) (p &&& q) := by
  apply BitVec.eq_of_getLsbD_eq
  intro k _
  simp only [BitVec.getLsbD_and, joinWord_getLsbD]
  split <;> simp

/-- Two words are equal when their fields are. -/
theorem joinWord_inj (a b : Byte) (p q : Pay) : joinWord a p = joinWord b q ↔ a = b ∧ p = q := by
  constructor
  · intro h
    exact ⟨by simpa using congrArg opField h, by simpa using congrArg payField h⟩
  · rintro ⟨rfl, rfl⟩; rfl

/-- A row whose mask covers all of `op` (30_encoding.md R70) is matched by the words that have its operation code and no bit
of its payload mask set. -/
theorem hits_iff {r : OpRow} {op : Byte} {m : Pay} (hm : r.mask = joinWord 0xFF m)
    (hp : r.pattern = joinWord op 0) (w : Word) :
    r.hits w = true ↔ opField w = op ∧ payField w &&& m = 0 := by
  have hff : opField w &&& 0xFF = opField w := BitVec.and_allOnes
  have hw : w &&& joinWord 0xFF m = joinWord (opField w) (payField w &&& m) := by
    conv_lhs => rw [← joinWord_fields w, joinWord_and, hff]
  rw [OpRow.hits, beq_iff_eq, hm, hp, hw, joinWord_inj]

/-- The operation code and the reserved payload bits of each row of the table, in its order (30_encoding.md R62, R63). -/
def rowFields : List (Byte × Pay) :=
  [(0x01, 0xFFFFFFFFFFFFFF), (0x02, 0xFFFFFF00000000), (0x10, 0xFFFFFFFF000000), (0x11, 0),
   (0x20, 0xFFFFFFFFFFF000), (0x21, 0), (0x30, 0xFFFFFFFFFFF000), (0x31, 0),
   (0x40, 0xFFFFFFFFC0FF00), (0x41, 0xFFFFFFFFC00000)]

/-- Every row of the table is described by `rowFields`. -/
theorem rowFields_table :
    opcodeTable.map (fun r => (r.pattern, r.mask)) =
      rowFields.map fun f => (joinWord f.1 0, joinWord 0xFF f.2) := by decide

/-- The operation code of a word is assigned exactly when it is one of the ten of 30_encoding.md R62. -/
theorem opAssigned_iff (op : Byte) :
    opAssigned op = decide (op ∈ [0x01#8, 0x02#8, 0x10#8, 0x11#8, 0x20#8, 0x21#8, 0x30#8, 0x31#8, 0x40#8, 0x41#8]) := by
  revert op; decide

/-- Whether a row of the table matches, as a test on the two fields of the word. -/
theorem hits_mk (mn : String) (build : Word → Instr) {pattern mask : Word} (op : Byte) (m : Pay)
    (hm : mask = joinWord 0xFF m) (hp : pattern = joinWord op 0) (w : Word) :
    OpRow.hits ⟨mn, pattern, mask, build⟩ w = (decide (opField w = op) && decide (payField w &&& m = 0#56)) := by
  rw [Bool.eq_iff_iff, hits_iff (op := op) (m := m) hm hp]; simp

/-- Decoding, operation code by operation code: everything the decoder can answer. -/
theorem decode_eq (w : Word) : decode w =
    if opField w = 0x01#8 then
      (if payField w &&& 0xFFFFFFFFFFFFFF#56 = 0#56 then .instr .xtalGet
       else .illegal .reservedPayloadBit) else
    if opField w = 0x02#8 then
      (if payField w &&& 0xFFFFFF00000000#56 = 0#56 then .instr (.xtalSet (w.extractLsb' 0 32))
       else .illegal .reservedPayloadBit) else
    if opField w = 0x10#8 then
      (if payField w &&& 0xFFFFFFFF000000#56 = 0#56 then .instr (.fcwDec (w.extractLsb' 16 8) (w.extractLsb' 8 8) (w.extractLsb' 0 8))
       else .illegal .reservedPayloadBit) else
    if opField w = 0x11#8 then .instr (.fcwEnc (w.extractLsb' 0 56)) else
    if opField w = 0x20#8 then
      (if payField w &&& 0xFFFFFFFFFFF000#56 = 0#56 then .instr (.fbwDec (w.extractLsb' 0 8) (w.extractLsb' 8 4))
       else .illegal .reservedPayloadBit) else
    if opField w = 0x21#8 then .instr (.fbwEnc (w.extractLsb' 0 56)) else
    if opField w = 0x30#8 then
      (if payField w &&& 0xFFFFFFFFFFF000#56 = 0#56 then .instr (.srDec (w.extractLsb' 0 8) (w.extractLsb' 8 4))
       else .illegal .reservedPayloadBit) else
    if opField w = 0x31#8 then .instr (.srEnc (w.extractLsb' 0 56)) else
    if opField w = 0x40#8 then
      (if payField w &&& 0xFFFFFFFFC0FF00#56 = 0#56 then .instr (.bfExt (w.extractLsb' 0 8) (w.extractLsb' 19 3) (w.extractLsb' 16 3))
       else .illegal .reservedPayloadBit) else
    if opField w = 0x41#8 then
      (if payField w &&& 0xFFFFFFFFC00000#56 = 0#56 then .instr (.bfIns (w.extractLsb' 0 8) (w.extractLsb' 19 3) (w.extractLsb' 16 3) (w.extractLsb' 8 8))
       else .illegal .reservedPayloadBit) else
    .illegal .unassignedOp := by
  unfold decode
  rw [opAssigned_iff]
  simp only [opcodeTable, List.cons_append, List.nil_append, List.filter]
  rw [hits_mk "XTAL.GET" _ 0x01 0xFFFFFFFFFFFFFF (by decide) (by decide) w,
    hits_mk "XTAL.SET" _ 0x02 0xFFFFFF00000000 (by decide) (by decide) w,
    hits_mk "FCW.DEC" _ 0x10 0xFFFFFFFF000000 (by decide) (by decide) w,
    hits_mk "FCW.ENC" _ 0x11 0 (by decide) (by decide) w,
    hits_mk "FBW.DEC" _ 0x20 0xFFFFFFFFFFF000 (by decide) (by decide) w,
    hits_mk "FBW.ENC" _ 0x21 0 (by decide) (by decide) w,
    hits_mk "SR.DEC" _ 0x30 0xFFFFFFFFFFF000 (by decide) (by decide) w,
    hits_mk "SR.ENC" _ 0x31 0 (by decide) (by decide) w,
    hits_mk "BF.EXT" _ 0x40 0xFFFFFFFFC0FF00 (by decide) (by decide) w,
    hits_mk "BF.INS" _ 0x41 0xFFFFFFFFC00000 (by decide) (by decide) w]
  by_cases h0 : opField w = 0x01#8
  · by_cases hp : payField w &&& 0xFFFFFFFFFFFFFF#56 = 0#56 <;> simp [h0, hp]
  by_cases h1 : opField w = 0x02#8
  · by_cases hp : payField w &&& 0xFFFFFF00000000#56 = 0#56 <;> simp [h1, hp]
  by_cases h2 : opField w = 0x10#8
  · by_cases hp : payField w &&& 0xFFFFFFFF000000#56 = 0#56 <;> simp [h2, hp]
  by_cases h3 : opField w = 0x11#8
  · simp [h3]
  by_cases h4 : opField w = 0x20#8
  · by_cases hp : payField w &&& 0xFFFFFFFFFFF000#56 = 0#56 <;> simp [h4, hp]
  by_cases h5 : opField w = 0x21#8
  · simp [h5]
  by_cases h6 : opField w = 0x30#8
  · by_cases hp : payField w &&& 0xFFFFFFFFFFF000#56 = 0#56 <;> simp [h6, hp]
  by_cases h7 : opField w = 0x31#8
  · simp [h7]
  by_cases h8 : opField w = 0x40#8
  · by_cases hp : payField w &&& 0xFFFFFFFFC0FF00#56 = 0#56 <;> simp [h8, hp]
  by_cases h9 : opField w = 0x41#8
  · by_cases hp : payField w &&& 0xFFFFFFFFC00000#56 = 0#56 <;> simp [h9, hp]
  simp [*]

end Sys2Proof
end

