-- ==== Sys2Proof/Laws/Exec.lean ====
section
/-! SUPPORT. What one instruction and one interaction can do, once. -/

namespace Sys2Proof.Machine

@[simp] theorem exec_xtalGet (s : State) : exec (.xtalGet) s = execXtalGet s := rfl
@[simp] theorem exec_xtalSet (x : Crystal) (s : State) : exec (.xtalSet x) s = execXtalSet x s := rfl
@[simp] theorem exec_fcwDec (b0 b1 b2 : Byte) (s : State) : exec (.fcwDec b0 b1 b2) s = execFcwDec b0 b1 b2 s := rfl
@[simp] theorem exec_fcwEnc (h : Pay) (s : State) : exec (.fcwEnc h) s = execFcwEnc h s := rfl
@[simp] theorem exec_fbwDec (m : Byte) (e : Exponent) (s : State) : exec (.fbwDec m e) s = execFbwDec m e s := rfl
@[simp] theorem exec_fbwEnc (h : Pay) (s : State) : exec (.fbwEnc h) s = execFbwEnc h s := rfl
@[simp] theorem exec_srDec (m : Byte) (e : Exponent) (s : State) : exec (.srDec m e) s = execSrDec m e s := rfl
@[simp] theorem exec_srEnc (r : Pay) (s : State) : exec (.srEnc r) s = execSrEnc r s := rfl
@[simp] theorem exec_bfExt (byte : Byte) (hi lo : BitIndex) (s : State) : exec (.bfExt byte hi lo) s = execBfExt byte hi lo s := rfl
@[simp] theorem exec_bfIns (byte : Byte) (hi lo : BitIndex) (value : Byte) (s : State) : exec (.bfIns byte hi lo value) s = execBfIns byte hi lo value s := rfl

/-- The four shapes of a meaning: a conversion of `XTAL_HZ`, the two configuration operations, and the bit-field operations,
whose answer depends on no state. -/
theorem exec_shape (i : Instr) :
    (∃ f, ∀ s, exec i s = convert f s) ∨ i = .xtalGet ∨ (∃ x, i = .xtalSet x) ∨
    (∃ r, ∀ s, exec i s = .next (s.answer r)) := by
  cases i with
  | xtalGet => exact .inr (.inl rfl)
  | xtalSet x => exact .inr (.inr (.inl ⟨x, rfl⟩))
  | fcwDec b0 b1 b2 => exact .inl ⟨_, fun s => (rfl : execFcwDec b0 b1 b2 s = convert _ s)⟩
  | fcwEnc h => exact .inl ⟨_, fun s => (rfl : execFcwEnc h s = convert _ s)⟩
  | fbwDec m e => exact .inl ⟨_, fun s => (rfl : execFbwDec m e s = convert _ s)⟩
  | fbwEnc h => exact .inl ⟨_, fun s => (rfl : execFbwEnc h s = convert _ s)⟩
  | srDec m e => exact .inl ⟨_, fun s => (rfl : execSrDec m e s = convert _ s)⟩
  | srEnc r => exact .inl ⟨_, fun s => (rfl : execSrEnc r s = convert _ s)⟩
  | bfExt byte hi lo =>
    refine .inr (.inr (.inr ?_))
    by_cases h : hi < lo
    · exact ⟨_, fun s => by rw [exec_bfExt, execBfExt, if_pos h]; rfl⟩
    · exact ⟨_, fun s => by rw [exec_bfExt, execBfExt, if_neg h]; rfl⟩
  | bfIns byte hi lo value =>
    refine .inr (.inr (.inr ?_))
    by_cases h : hi < lo
    · exact ⟨_, fun s => by rw [exec_bfIns, execBfIns, if_pos h]; rfl⟩
    · by_cases hv : 2 ^ rangeWidth hi lo ≤ value.toNat
      · exact ⟨_, fun s => by rw [exec_bfIns, execBfIns, if_neg h, if_pos hv]; rfl⟩
      · exact ⟨_, fun s => by rw [exec_bfIns, execBfIns, if_neg h, if_neg hv]; rfl⟩

/-- A successful `XTAL.SET`. -/
theorem execXtalSet_ne {x : Crystal} (h : x ≠ 0) (s : State) :
    execXtalSet x s = .next ((s.setCrystal x).answer (.ok 0)) := if_neg h

/-- `XTAL.SET 0`. -/
theorem execXtalSet_zero (s : State) : execXtalSet 0 s = raise .domainError s := rfl

/-- An instruction that answers a next state took nothing from the port, and either is a successful `XTAL.SET` or wrote the
response only. -/
theorem exec_next {i : Instr} {s t : State} (h : exec i s = .next t) :
    (∃ x, i = .xtalSet x ∧ x ≠ 0 ∧ t = (s.setCrystal x).answer (.ok 0)) ∨
    ((∀ x, i = .xtalSet x → x = 0) ∧ ∃ r, t = s.answer r) := by
  rcases exec_shape i with ⟨f, hf⟩ | rfl | ⟨x, rfl⟩ | ⟨r, hr⟩
  · refine .inr ⟨?_, ?_⟩
    · rintro x rfl
      by_contra hx
      have := hf { s with xtalHz := 0 }
      rw [exec_xtalSet, execXtalSet_ne hx, convert_zero _ rfl] at this
      cases this
    · rw [hf] at h
      obtain ⟨-, ⟨p, -, rfl⟩ | ⟨-, rfl⟩⟩ := convert_next h <;> exact ⟨_, rfl⟩
  · cases h
    exact .inr ⟨fun x hx => (by cases hx), _, rfl⟩
  · by_cases hx : x = 0
    · subst hx
      cases h
      exact .inr ⟨fun x hx => (by cases hx; rfl), _, rfl⟩
    · rw [exec_xtalSet, execXtalSet_ne hx] at h
      cases h
      exact .inl ⟨x, rfl, hx, rfl⟩
  · refine .inr ⟨?_, ?_⟩
    · rintro x rfl
      by_contra hx
      have h1 := hr { s with xtalHz := 0 }
      rw [exec_xtalSet, execXtalSet_ne hx] at h1
      exact hx (congrArg (fun o => match o with | Host.Outcome.next t => t.xtalHz | _ => 0) h1)
    · rw [hr] at h
      cases h
      exact ⟨r, rfl⟩

/-- With a legal crystal every instruction answers a next state. -/
theorem exec_legal (i : Instr) {s : State} (hX : s.xtalHz ≠ 0) : ∃ t, exec i s = .next t := by
  rcases exec_shape i with ⟨f, hf⟩ | rfl | ⟨x, rfl⟩ | ⟨r, hr⟩
  · rw [hf, convert_legal f hX]
    cases f s.xtalHz.toNat <;> exact ⟨_, rfl⟩
  · exact ⟨_, rfl⟩
  · by_cases hx : x = 0
    · subst hx; exact ⟨_, rfl⟩
    · exact ⟨_, execXtalSet_ne hx s⟩
  · exact ⟨_, hr s⟩

/-- A step takes the first interaction of the port. -/
theorem step_cons_eq {s : State} {e : HostEvent} {rest : List HostEvent} (h : s.port = e :: rest) :
    stepPort s = takeEvent e { s with port := rest } := by
  simp only [stepPort, h]

/-- With nothing presented there is no step. -/
theorem step_nil_eq {s : State} (h : s.port = []) : stepPort s = .refused .noCommand := by
  simp only [stepPort, h]

/-- Running a word that decodes runs its instruction. -/
theorem runCommand_instr {w : Word} {i : Instr} (h : decode w = .instr i) (s : State) :
    runCommand w s = exec i s := by simp only [runCommand, h]

/-- Running a word that does not decode answers IllegalCommand. -/
theorem runCommand_illegal {w : Word} {why : Illegal} (h : decode w = .illegal why) (s : State) :
    runCommand w s = raise .illegalCommand s := by simp only [runCommand, h]

end Sys2Proof.Machine
end

