-- ==== Sys2Proof/Laws/PerInstr.lean ====
section
/-! SUPPORT. Families of laws stated per constructor of `Instr` (LAWS.json, "per_instruction"). -/

namespace Sys2Proof.Laws

namespace OpAndPayload

/-- The command word of an instruction has its operation code in bits 63:56 and its payload in bits 55:0
(30_encoding.md R60). -/
def Statement (i : Instr) : Prop := opField (encode i) = i.op ∧ payField (encode i) = i.pay

theorem xtalGet : Statement .xtalGet := ⟨opField_joinWord _ _, payField_joinWord _ _⟩
theorem xtalSet (x : Crystal) : Statement (.xtalSet x) := ⟨opField_joinWord _ _, payField_joinWord _ _⟩
theorem fcwDec (b0 b1 b2 : Byte) : Statement (.fcwDec b0 b1 b2) := ⟨opField_joinWord _ _, payField_joinWord _ _⟩
theorem fcwEnc (h : Pay) : Statement (.fcwEnc h) := ⟨opField_joinWord _ _, payField_joinWord _ _⟩
theorem fbwDec (m : Byte) (e : Exponent) : Statement (.fbwDec m e) := ⟨opField_joinWord _ _, payField_joinWord _ _⟩
theorem fbwEnc (h : Pay) : Statement (.fbwEnc h) := ⟨opField_joinWord _ _, payField_joinWord _ _⟩
theorem srDec (m : Byte) (e : Exponent) : Statement (.srDec m e) := ⟨opField_joinWord _ _, payField_joinWord _ _⟩
theorem srEnc (r : Pay) : Statement (.srEnc r) := ⟨opField_joinWord _ _, payField_joinWord _ _⟩
theorem bfExt (byte : Byte) (hi lo : BitIndex) : Statement (.bfExt byte hi lo) := ⟨opField_joinWord _ _, payField_joinWord _ _⟩
theorem bfIns (byte : Byte) (hi lo : BitIndex) (value : Byte) : Statement (.bfIns byte hi lo value) :=
  ⟨opField_joinWord _ _, payField_joinWord _ _⟩

end OpAndPayload
end Sys2Proof.Laws
end

