-- ==== Sys2Proof/Laws/Run.lean ====
section
/-! SUPPORT. Several steps of the machine (Host/Core.lean, `Core.run`), in terms of `step`. -/

namespace Sys2Proof.Machine

/-- A run of any machine goes on from its first step. -/
theorem coreRun_of_step (M : Host.Core) {s t : M.State} (h : M.step s = .next t) (n : Nat) :
    M.run (n + 1) s = M.run n t := by rw [Host.Core.run, h]

/-- A run of any machine that lasts, lasts one step more exactly as its last state steps. -/
theorem coreRun_then_step (M : Host.Core) (n : Nat) :
    ∀ {s t : M.State}, M.run n s = .next t → M.run (n + 1) s = M.step t := by
  induction n with
  | zero =>
    intro s t h
    cases h
    rw [Host.Core.run]
    cases h : M.step s <;> rfl
  | succ n ih =>
    intro s t h
    rw [Host.Core.run] at h ⊢
    cases hs : M.step s with
    | next u => rw [hs] at h; exact ih h
    | fault r => rw [hs] at h; cases h
    | refused r => rw [hs] at h; cases h

/-- No steps. -/
theorem run_zero (s : State) : core.run 0 s = Host.Outcome.next s := rfl

/-- A first step that answers a next state. -/
theorem run_of_step {s t : State} (h : step s = .next t) (n : Nat) : core.run (n + 1) s = core.run n t :=
  coreRun_of_step core h n

/-- A last step. -/
theorem run_then_step (n : Nat) {s t : State} (h : core.run n s = Host.Outcome.next t) :
    core.run (n + 1) s = step t := coreRun_then_step core n h

end Sys2Proof.Machine
end

