-- ==== Sys2Proof/Tests/Slice0.lean ====
section
/-! SUPPORT. Small tests, each one decoding or one step, and the witnesses of the obligations' hypotheses. Expected values
are those of spec/95_test_vectors.md (cited by its ids), which the spec computed, or of spec/opcode_table.json. -/

namespace Sys2Proof.Tests

open Sys2Proof Sys2Proof.Machine

/-- A state with the crystal `X` and nothing presented. -/
def crystalOf (X : Nat) : State := { xtalHz := BitVec.ofNat 32 X, port := [], response := none }

/-- The state after reset with one command word presented. -/
def presented (w : Word) : State := State.reset.withProgram [w]

/-- The next state of an outcome, where it has one. -/
def nextState (o : StepResult) : Option State :=
  match o with
  | .next t => some t
  | _ => none

/-- The response word of the step that takes one command word, at the crystal `X`. -/
def wireAnswer (X : Nat) (w : Word) : Option Word :=
  match step ((crystalOf X).withProgram [w]) with
  | .next t => t.response.map Response.word
  | _ => none

/-! Decoding: the bits of spec/opcode_table.json's `encoding` rows with operands put in by hand. -/

theorem test_decode_xtalGet :
    decode 0b0000000100000000000000000000000000000000000000000000000000000000 = .instr .xtalGet := by decide
theorem test_decode_xtalSet :
    decode 0b0000001000000000000000000000000010000000000000000000000000000001 =
      .instr (.xtalSet 0x80000001) := by decide
theorem test_decode_fcwDec :
    decode 0b0001000000000000000000000000000000000000100000010000001011111111 =
      .instr (.fcwDec 0x81 0x02 0xFF) := by decide
theorem test_decode_fcwEnc :
    decode 0b0001000110000000000000000000000000000000000000000000000000000101 =
      .instr (.fcwEnc 0x80000000000005) := by decide
theorem test_decode_fbwDec :
    decode 0b0010000000000000000000000000000000000000000000000000101110000001 =
      .instr (.fbwDec 0x81 0xB) := by decide
theorem test_decode_fbwEnc :
    decode 0b0010000110000000000000000000000000000000000000000000000000000101 =
      .instr (.fbwEnc 0x80000000000005) := by decide
theorem test_decode_srDec :
    decode 0b0011000000000000000000000000000000000000000000000000101110000001 =
      .instr (.srDec 0x81 0xB) := by decide
theorem test_decode_srEnc :
    decode 0b0011000110000000000000000000000000000000000000000000000000000101 =
      .instr (.srEnc 0x80000000000005) := by decide
theorem test_decode_bfExt :
    decode 0b0100000000000000000000000000000000000000001100010000000010000001 =
      .instr (.bfExt 0x81 6 1) := by decide
theorem test_decode_bfIns :
    decode 0b0100000100000000000000000000000000000000001100010100001110000001 =
      .instr (.bfIns 0x81 6 1 0x43) := by decide

/-- V148, V151: unassigned operation codes. -/
theorem test_decode_unassigned :
    decode 0 = .illegal .unassignedOp ∧ decode 0x4200000000000000 = .illegal .unassignedOp ∧
    decode 0xFF00000000001234 = .illegal .unassignedOp := by decide
/-- V3c, V14, V117, V145: reserved payload bits, the lowest of each row's. -/
theorem test_decode_reserved :
    decode 0x0100000000000001 = .illegal .reservedPayloadBit ∧
    decode 0x0200000100000000 = .illegal .reservedPayloadBit ∧
    decode 0x1000000001000000 = .illegal .reservedPayloadBit ∧
    decode 0x2000000000001000 = .illegal .reservedPayloadBit ∧
    decode 0x3000000000001000 = .illegal .reservedPayloadBit ∧
    decode 0x400000000018018C = .illegal .reservedPayloadBit ∧
    decode 0x400000000040008C = .illegal .reservedPayloadBit ∧
    decode 0x4100000000400000 = .illegal .reservedPayloadBit := by decide

/-! Well-formedness of source lines (30_encoding.md R67, R68): one ill-formed line for each check. -/

theorem test_line_ok : (AsmLine.mk .bfIns [.num 255, .num 7, .num 7, .num 255]).wellFormed = true := by decide
theorem test_line_operand_missing : (AsmLine.mk .fbwDec [.num 4]).wellFormed = false := by decide
theorem test_line_operand_extra : (AsmLine.mk .xtalGet [.num 0]).wellFormed = false := by decide
theorem test_line_byte_too_wide : (AsmLine.mk .fcwDec [.num 256, .num 0, .num 0]).wellFormed = false := by decide
theorem test_line_index_too_wide : (AsmLine.mk .bfExt [.num 0, .num 8, .num 0]).wellFormed = false := by decide
theorem test_line_exponent_too_wide : (AsmLine.mk .srDec [.num 0, .num 16]).wellFormed = false := by decide
theorem test_line_crystal_too_wide : (AsmLine.mk .xtalSet [.num 4294967296]).wellFormed = false := by decide
theorem test_line_raw_too_wide : (AsmLine.mk .srEnc [.num 72057594037927936]).wellFormed = false := by decide
/-- `HZ(0.1)` is no whole number of `2^-16` hertz (R68). -/
theorem test_line_helper_inexact : (AsmLine.mk .fcwEnc [.hz ⟨1, 1⟩]).wellFormed = false := by decide
theorem test_line_helper_too_wide : (AsmLine.mk .srEnc [.baud ⟨268435456, 0⟩]).wellFormed = false := by decide
/-- "It does not refuse values the operation itself rejects with DomainError (for example `FBW.DEC 4, 0`)". -/
theorem test_line_domain_error_allowed : (AsmLine.mk .fbwDec [.num 4, .num 0]).wellFormed = true := by decide

/-- R68's example `HZ(101562.5) = 0x18CBA8000`, and V26. -/
theorem test_text_hz :
    assembleText Config.fields "FBW.ENC HZ(101562.5) ; V26" = some 0x210000018CBA8000 := by decide
/-- P2 step 5: `PUT.SR_E 0xCA, 12`. -/
theorem test_text_put : assembleText Config.fields "PUT.SR_E 0xCA, 12" = some 0x4100000000180CCA := by decide

/-! One step on the wires, from the vectors of spec/95_test_vectors.md. -/

theorem test_xtalGet_v140 : wireAnswer 26000000 0x0100000000000000 = some 0x00000000018CBA80 := by decide
theorem test_xtalSet_v146 :
    nextState (step (presented 0x02000000FFFFFFFF)) =
      some { xtalHz := 0xFFFFFFFF, port := [], response := some (.ok 0) } := by decide
theorem test_xtalSet_v144 :
    nextState (step (presented 0x0200000000000000)) =
      some { xtalHz := 26000000, port := [], response := some (.error .domainError) } := by decide
theorem test_fcwDec_v169 : wireAnswer 4294967295 0x1000000000FFFFFF = some 0x00FFFFFEFF000001 := by decide
theorem test_fcwDec_v3 : wireAnswer 26000000 0x100000000010B071 = some 0x000019DD17565280 := by decide
theorem test_fcwEnc_v5b_tie : wireAnswer 26000000 0x1100000000C65D40 = some 0x0000000000000001 := by decide
theorem test_fcwEnc_v6_v7 :
    wireAnswer 26000000 0x11018CBA7F39A2BF = some 0x0000000000FFFFFF ∧
    wireAnswer 26000000 0x11018CBA7F39A2C0 = some 0x0100000000000000 := by decide
theorem test_fbwDec_v10 : wireAnswer 26000000 0x2000000000000301 = some 0x000000013D620000 := by decide
theorem test_fbwDec_v12 : wireAnswer 26000000 0x2000000000000400 = some 0x0100000000000000 := by decide
theorem test_fbwEnc_v17_v18 :
    wireAnswer 26000000 0x2100000B28720000 = some 0x0000000000000000 ∧
    wireAnswer 26000000 0x2100000B2871FFFF = some 0x0000000000000001 := by decide
theorem test_fbwEnc_v32_v33 :
    wireAnswer 26000000 0x21000000E2B3B6DB = some 0x0000000000000303 ∧
    wireAnswer 26000000 0x21000000E2B3B6DA = some 0x0100000000000000 := by decide
theorem test_srDec_v58 : wireAnswer 26000000 0x3000000000000D00 = some 0x0000319750000000 := by decide
theorem test_srDec_v170 : wireAnswer 4294967295 0x3000000000000FFF = some 0x00FF7FFFFF008000 := by decide
theorem test_srEnc_v76_v77_carry :
    wireAnswer 26000000 0x3100318AEA2C0000 = some 0x0000000000000D00 ∧
    wireAnswer 26000000 0x3100318AEA2BFFFF = some 0x0000000000000CFF := by decide
theorem test_srEnc_v96_v97 :
    wireAnswer 26000000 0x31018C57515FFFFF = some 0x0000000000000FFF ∧
    wireAnswer 26000000 0x31018C5751600000 = some 0x0100000000000000 := by decide
theorem test_bfExt_v115 : wireAnswer 26000000 0x40000000003100FF = some 0x000000000000003F := by decide
theorem test_bfExt_v116 : wireAnswer 26000000 0x40000000001300A5 = some 0x0100000000000000 := by decide
theorem test_bfIns_v124 : wireAnswer 26000000 0x41000000003E018D = some 0x000000000000004D := by decide
theorem test_bfIns_v123 : wireAnswer 26000000 0x410000000018108C = some 0x0100000000000000 := by decide
/-- P6 step 7: a reserved bit and a bad operand at once; IllegalCommand wins (60_exceptions.md R195). -/
theorem test_illegal_wins : wireAnswer 26000000 0x2000000000001004 = some 0x0200000000000000 := by decide
/-- P5 step 7: reset after `XTAL.SET`. -/
theorem test_reset_event :
    nextState (step { crystalOf 27000000 with port := [.reset] }) =
      some { xtalHz := 26000000, port := [], response := none } := by decide
/-- The counterexample of log entry 15 to 42_symbol_rate.md R135 as worded: at `X = 1` the pair (0, 4) has the raw rate 4096,
and 4090 is less than half a spacing (8) away, but encodes to (255, 3), raw 4088. -/
theorem test_r135_counterexample :
    answerOf (.srEnc 4090) (crystalOf 1) = some (.ok (packPair 255 3)) ∧ packPair 255 3 ≠ packPair 0 4 := by decide

/-- 42_symbol_rate.md R135 against itself: at `X = 26,000,000` the pair (0, 3), raw rate 2048 X, is rounded to 198 baud, which
is less than half a spacing (8 X / 2) away, so its half-spacing sentence has it reproduced; its count 58 for `e = 3` is reached
only with this pair among the lost. -/
theorem test_r135_counts_the_pair_its_sentence_keeps :
    2 * (2048 * 26000000 - 198 * 2 ^ 28) < 8 * 26000000 ∧ 198 * 2 ^ 28 < 2048 * 26000000 ∧
    answerOf (.srEnc (BitVec.ofNat 56 (198 * 2 ^ 28))) State.reset = some (.ok (packPair 255 2)) ∧
    survivesWholeBaud State.reset 0 3 = false := by decide

/-! Witnesses: for each obligation with hypotheses, values that meet them together, one for each clause. -/

theorem witness_EncodeOfDecodeIsIdentity : decode 0x3000000000000FFF = .instr (.srDec 255 15) := by decide
theorem witness_IllegalCommandExactlyOnIllegalWords :
    (presented 0x4000000000400000).port = .command 0x4000000000400000 :: [] ∧
    ¬ legalWord 0x4000000000400000 ∧ legalWord 0x40000000003F00FF := by
  refine ⟨rfl, ?_, ?_⟩ <;> (unfold legalWord; decide)
theorem witness_ResponseWordHasStatusAndPayload :
    opField (Response.error .illegalCommand).word ≠ 0x00 ∧ opField (Response.ok 1).word = 0x00 := by decide
theorem witness_StepRunsThePresentedCommand :
    (presented 0x0100000000000000).port = .command 0x0100000000000000 :: [] ∧
    decode 0x0100000000000000 = .instr .xtalGet := by decide
theorem witness_ResetRestoresDefaultCrystal :
    ({ crystalOf 1 with port := [.reset] } : State).port = .reset :: [] ∧
    ({ crystalOf 1 with port := [.commandCutByReset 5] } : State).port = .commandCutByReset 5 :: [] := by decide
theorem witness_OverlapAndEmptyPortHaveNoStep :
    ({ crystalOf 1 with port := [.overlappingCommands 1 2] } : State).port = .overlappingCommands 1 2 :: [] ∧
    State.reset.port = [] := by decide
theorem witness_ConversionsHaveNoStepAtZeroCrystal : (crystalOf 0).xtalHz = 0 := by decide
theorem witness_XtalSetWritesANonzeroCrystal : (0xFFFFFFFF : Crystal) ≠ 0 ∧ (0 : Crystal) = 0 := by decide
/-- Also for FcwEncodeAfterDecodeIsIdentity, FcwEncIsMonotone (its first clause: witness_FcwEncIsMonotone),
SrDecAnswersTheExactRate, SrEncodeAfterDecodeIsIdentity: the smallest and the largest crystal. -/
theorem witness_FcwDecAnswersTheExactProduct : LegalCrystal (crystalOf 1) ∧ LegalCrystal (crystalOf 4294967295) := by
  decide
theorem witness_FcwEncAnswersTheNearestWord :
    LegalCrystal State.reset ∧ 2 * (436207602999999#56).toNat < (2 ^ 25 - 1) * State.reset.xtalHz.toNat ∧
    2 * (436207603000000#56).toNat ≥ (2 ^ 25 - 1) * State.reset.xtalHz.toNat := by decide
theorem witness_FcwEncodeAfterDecodeIsIdentity : LegalCrystal (crystalOf 4294967295) := by decide
theorem witness_FcwDecodeAfterEncodeWithinHalfStep :
    LegalCrystal State.reset ∧ answerOf (.fcwEnc 13000000) State.reset = some (.ok 1) := by decide
/-- The last clause of the same: the operand 13000000 is a tie, half a step from what it decodes to. -/
theorem witness_FcwDecodeAfterEncodeTie :
    answerOf (.fcwDec 0 0 1) State.reset = some (.ok 26000000) ∧
    2 * (26000000 - 13000000) = State.reset.xtalHz.toNat := by decide
theorem witness_FcwEncIsMonotone :
    LegalCrystal State.reset ∧ (12999999#56).toNat ≤ (13000000#56).toNat ∧
    answerOf (.fcwEnc 12999999) State.reset = some (.ok 0) ∧
    answerOf (.fcwEnc 13000000) State.reset = some (.ok 1) := by decide
theorem witness_FbwDecAnswersTheRoundedBandwidth :
    LegalCrystal State.reset ∧ (3 : Byte).toNat ≤ 3 ∧ (3 : Exponent).toNat ≤ 3 ∧
    ((4 : Byte).toNat > 3 ∨ (0 : Exponent).toNat > 3) ∧ ((0 : Byte).toNat > 3 ∨ (4 : Exponent).toNat > 3) := by decide
theorem witness_FbwDecStrictlyDecreases : LegalCrystal (crystalOf 1) ∧ 2 ≤ 3 ∧ 3 ≤ 3 ∧ 4 * 3 + 2 < 4 * 3 + 3 := by
  decide
theorem witness_FbwEncAnswersTheNearestPair :
    LegalCrystal State.reset ∧
    (2 * (State.reset.xtalHz.toNat * 2 ^ 10) + 7) / 14 ≤ (3803428571#56).toNat ∧
    (3803428571#56).toNat ≤ State.reset.xtalHz.toNat * 2 ^ 11 ∧
    (53248000001#56).toNat > State.reset.xtalHz.toNat * 2 ^ 11 ∧
    (3803428570#56).toNat < (2 * (State.reset.xtalHz.toNat * 2 ^ 10) + 7) / 14 := by decide
/-- The upper end of the accepted range itself. -/
theorem witness_FbwEncAtTheUpperEnd :
    (2 * (State.reset.xtalHz.toNat * 2 ^ 10) + 7) / 14 ≤ (53248000000#56).toNat ∧
    (53248000000#56).toNat ≤ State.reset.xtalHz.toNat * 2 ^ 11 ∧
    answerOf (.fbwEnc 53248000000) State.reset = some (.ok (packPair 0 0)) := by decide
theorem witness_FbwEncodeAfterDecodeIsIdentity :
    LegalCrystal (crystalOf 1) ∧ (3 : Byte).toNat ≤ 3 ∧ (3 : Exponent).toNat ≤ 3 := by decide
theorem witness_SrDecAnswersTheExactRate : LegalCrystal (crystalOf 4294967295) := by decide
theorem witness_SrEncAnswersTheNearestPair :
    LegalCrystal State.reset ∧
    511 * State.reset.xtalHz.toNat ≤ 2 * (6643000000#56).toNat ∧
    2 * (6643000000#56).toNat < (2 ^ 25 - 2 ^ 15) * State.reset.xtalHz.toNat ∧
    2 * (6642999999#56).toNat < 511 * State.reset.xtalHz.toNat ∧
    2 * (435781632000000#56).toNat ≥ (2 ^ 25 - 2 ^ 15) * State.reset.xtalHz.toNat := by decide
theorem witness_SrEncCarriesIntoTheExponent :
    LegalCrystal State.reset ∧ 12 ≤ 15 ∧
    256 * 2 ^ 12 * State.reset.xtalHz.toNat ≤ (54472704000000#56).toNat ∧
    (54472704000000#56).toNat < 512 * 2 ^ 12 * State.reset.xtalHz.toNat ∧
    (2 * (54472704000000#56).toNat + State.reset.xtalHz.toNat * 2 ^ 12) / (2 * (State.reset.xtalHz.toNat * 2 ^ 12)) =
      512 := by decide
/-- The clause `e = 15` of the same. -/
theorem witness_SrEncCarryOutOfTheExponent :
    256 * 2 ^ 15 * State.reset.xtalHz.toNat ≤ (435781632000000#56).toNat ∧
    (435781632000000#56).toNat < 512 * 2 ^ 15 * State.reset.xtalHz.toNat ∧
    (2 * (435781632000000#56).toNat + State.reset.xtalHz.toNat * 2 ^ 15) /
      (2 * (State.reset.xtalHz.toNat * 2 ^ 15)) = 512 := by decide
theorem witness_SrEncodeAfterDecodeIsIdentity : LegalCrystal (crystalOf 1) := by decide
theorem witness_SrPairsHaveDistinctRates :
    LegalCrystal (crystalOf 1) ∧ answerOf (.srDec 255 3) (crystalOf 1) = answerOf (.srDec 255 3) (crystalOf 1) := by
  decide
/-- The premises, met at the last rate of the exception below the pair (0, 4), 4091, and at the first above it, 4092. -/
theorem witness_RateWithinHalfSpacingEncodesToPairOrLowerNeighbour :
    LegalCrystal (crystalOf 1) ∧
    2 * |((4091#56).toNat : ℤ) - ((256 + (0 : Byte).toNat) * 2 ^ (4 : Exponent).toNat * (crystalOf 1).xtalHz.toNat : ℕ)| <
      (2 ^ (4 : Exponent).toNat * (crystalOf 1).xtalHz.toNat : ℕ) ∧
    2 * |((4092#56).toNat : ℤ) - ((256 + (0 : Byte).toNat) * 2 ^ (4 : Exponent).toNat * (crystalOf 1).xtalHz.toNat : ℕ)| <
      (2 ^ (4 : Exponent).toNat * (crystalOf 1).xtalHz.toNat : ℕ) ∧
    4 * (4091#56).toNat + 2 ^ (4 : Exponent).toNat * (crystalOf 1).xtalHz.toNat <
      4 * (256 * 2 ^ (4 : Exponent).toNat * (crystalOf 1).xtalHz.toNat) ∧
    ¬ 4 * (4092#56).toNat + 2 ^ (4 : Exponent).toNat * (crystalOf 1).xtalHz.toNat <
      4 * (256 * 2 ^ (4 : Exponent).toNat * (crystalOf 1).xtalHz.toNat) := by decide
theorem witness_RoundedRateSurvivesAwayFromLowerEdge :
    LegalCrystal (crystalOf 1) ∧
    2 * |((4092#56).toNat : ℤ) - ((256 + (0 : Byte).toNat) * 2 ^ (4 : Exponent).toNat * (crystalOf 1).xtalHz.toNat : ℕ)| <
      (2 ^ (4 : Exponent).toNat * (crystalOf 1).xtalHz.toNat : ℕ) ∧
    4 * (256 * 2 ^ (4 : Exponent).toNat * (crystalOf 1).xtalHz.toNat) ≤
      4 * (4092#56).toNat + 2 ^ (4 : Exponent).toNat * (crystalOf 1).xtalHz.toNat := by decide
/-- Both directions at the lowest accepted rates of the pair (0, 4), 4092 and, refused to it, 4091. -/
theorem witness_SrEncReproducesExactlyTheNearRates :
    LegalCrystal (crystalOf 1) ∧ answerOf (.srEnc 4092) (crystalOf 1) = some (.ok (packPair 0 4)) ∧
    answerOf (.srEnc 4091) (crystalOf 1) = some (.ok (packPair 255 3)) := by decide
/-- The pair (0, 12), 101562.5 baud, halfway between the two whole numbers 101562 and 101563. -/
theorem witness_WholeBaudRoundingAtDefaultCrystal :
    State.reset.xtalHz.toNat = 26000000 ∧ 4 ≤ (12 : Exponent).toNat ∧
    |((101562 : ℕ) : ℚ) - symbolRate 26000000 (0 : Byte).toNat (12 : Exponent).toNat| ≤ 1 / 2 := by
  refine ⟨by decide, by decide, ?_⟩
  change |((101562 : ℕ) : ℚ) - symbolRate 26000000 0 12| ≤ 1 / 2
  norm_num [symbolRate]
theorem witness_BfExtAnswersTheField :
    (7 : BitIndex).toNat ≤ (7 : BitIndex).toNat ∧ (0 : BitIndex).toNat < (1 : BitIndex).toNat := by decide
theorem witness_BfInsWritesTheFieldOnly :
    (0 : BitIndex).toNat ≤ (3 : BitIndex).toNat ∧
    (15 : Byte).toNat < 2 ^ ((3 : BitIndex).toNat - (0 : BitIndex).toNat + 1) ∧
    (16 : Byte).toNat ≥ 2 ^ ((3 : BitIndex).toNat - (0 : BitIndex).toNat + 1) ∧
    (0 : BitIndex).toNat < (1 : BitIndex).toNat := by decide
/-- P3: the fields 7:6 and 5:4, disjoint and adjacent. -/
theorem witness_BitFieldLawsHold :
    (6 : BitIndex).toNat ≤ (7 : BitIndex).toNat ∧
    (2 : Byte).toNat < 2 ^ ((7 : BitIndex).toNat - (6 : BitIndex).toNat + 1) ∧
    (4 : BitIndex).toNat ≤ (5 : BitIndex).toNat ∧
    ((7 : BitIndex).toNat < (4 : BitIndex).toNat ∨ (5 : BitIndex).toNat < (6 : BitIndex).toNat) ∧
    (3 : Byte).toNat < 2 ^ ((5 : BitIndex).toNat - (4 : BitIndex).toNat + 1) := by decide
theorem witness_DomainErrorExactlyWhenTabled :
    LegalCrystal State.reset ∧ domainErrorCause State.reset.xtalHz.toNat (.fbwDec 4 0) ∧
    ¬ domainErrorCause State.reset.xtalHz.toNat (.fbwDec 3 3) := by
  refine ⟨by decide, ?_, ?_⟩ <;> (unfold domainErrorCause; decide)
theorem witness_InstructionFrame :
    exec .xtalGet State.reset = .next { State.reset with response := some (.ok 26000000) } := rfl
theorem witness_EveryCommandIsAnswered :
    LegalCrystal (presented 0) ∧ (presented 0).port = .command 0 :: [] ∧ decode 0 ≠ .instr (.xtalSet 1) := by decide
theorem witness_StepKeepsTheCrystalLegal :
    LegalCrystal (presented 0x0200000000000001) ∧
    step (presented 0x0200000000000001) = .next { xtalHz := 1, port := [], response := some (.ok 0) } :=
  ⟨by decide, rfl⟩
/-- Its first clause; test_reset_event meets the second. -/
theorem witness_CrystalWrittenOnlyBySetOrReset :
    step (presented 0x0200000000000001) = .next { xtalHz := 1, port := [], response := some (.ok 0) } ∧
    (1 : Crystal) ≠ (presented 0x0200000000000001).xtalHz := ⟨rfl, by decide⟩
theorem witness_ResponseDependsOnCommandAndCrystal :
    LegalCrystal (presented 0x0100000000000000) ∧
    (presented 0x0100000000000000).port = .command 0x0100000000000000 :: [] ∧
    (State.reset.withProgram [0x0100000000000000, 0]).port = .command 0x0100000000000000 :: [.command 0] ∧
    (presented 0x0100000000000000).xtalHz = (State.reset.withProgram [0x0100000000000000, 0]).xtalHz := by decide
theorem witness_ErrorLeavesNoTrace :
    step (State.reset.withProgram [0, 0x0100000000000000]) =
      .next { xtalHz := 26000000, port := [.command 0x0100000000000000], response := some (.error .illegalCommand) } := rfl
theorem witness_RunServesEveryInteraction :
    LegalCrystal { crystalOf 1 with port := [.command 0, .reset, .commandCutByReset 7] } ∧
    HostWaits { crystalOf 1 with port := [.command 0, .reset, .commandCutByReset 7] } := by decide
/-- The host goes on after the command. -/
theorem witness_CommandUsesTheLatestCrystal :
    LegalCrystal (State.reset.withProgram [0x02000000019BFCC0, encode (.srDec 34 12), 0]) ∧
    [HostEvent.command 0x02000000019BFCC0].all HostEvent.oneAtATime = true ∧
    (State.reset.withProgram [0x02000000019BFCC0, encode (.srDec 34 12), 0]).port =
      [.command 0x02000000019BFCC0] ++ .command (encode (.srDec 34 12)) :: [.command 0] := by decide
theorem witness_PseudoInstructionsSubstitute :
    fieldRow Config.fields .srE = some ⟨.srE, 3, 0, .register 0x10⟩ := by decide

end Sys2Proof.Tests
end

section
/-! What a command and an interaction can do, once, and the proofs about the state (10_state.md). -/

namespace Sys2Proof.Machine

/-! ## Commands -/

/-- `newCrystal` is the frequency of a successful `XTAL.SET` (44_config.md R182). -/
theorem newCrystal_eq_some_iff {w : Word} {x : Crystal} :
    newCrystal w = some x ↔ decode w = .instr (.xtalSet x) ∧ x ≠ 0 := by
  unfold newCrystal
  split
  case h_1 y hw =>
    rw [hw, Decoded.instr.injEq, Instr.xtalSet.injEq]
    by_cases hy : y = 0
    · rw [if_pos hy]
      exact iff_of_false nofun fun ⟨hyx, hx⟩ => hx (hyx ▸ hy)
    · rw [if_neg hy, Option.some_inj]
      exact ⟨fun hyx => ⟨hyx, hyx ▸ hy⟩, And.left⟩
  case h_2 hw =>
    exact iff_of_false nofun fun h => hw x h.1

/-- A word that is no successful `XTAL.SET` has no new crystal. -/
theorem newCrystal_eq_none {w : Word} (h : ∀ x, decode w = .instr (.xtalSet x) → x = 0) :
    newCrystal w = none :=
  Option.eq_none_iff_forall_ne_some.2 fun x hx =>
    (newCrystal_eq_some_iff.1 hx).2 (h x (newCrystal_eq_some_iff.1 hx).1)

/-- A command that is answered is a successful `XTAL.SET` or writes the response only. -/
theorem runCommand_next {w : Word} {s t : State} (h : runCommand w s = .next t) :
    (∃ x, newCrystal w = some x ∧ t = (s.setCrystal x).answer (.ok 0)) ∨
    (newCrystal w = none ∧ ∃ r, t = s.answer r) := by
  cases hw : decode w with
  | illegal why =>
    rw [runCommand_illegal hw, raise_eq] at h
    cases h
    exact .inr ⟨newCrystal_eq_none (by simp [hw]), _, rfl⟩
  | instr i =>
    rw [runCommand_instr hw] at h
    rcases exec_next h with ⟨x, rfl, hx, rfl⟩ | ⟨hi, r, rfl⟩
    · exact .inl ⟨x, newCrystal_eq_some_iff.2 ⟨hw, hx⟩, rfl⟩
    · exact .inr ⟨newCrystal_eq_none (by simpa [hw] using hi), r, rfl⟩

/-- With a legal crystal every command is answered, one of the ten or not (60_exceptions.md R190). -/
theorem runCommand_legal (w : Word) {s : State} (hX : LegalCrystal s) : ∃ t, runCommand w s = .next t := by
  cases hw : decode w with
  | illegal why => exact ⟨_, runCommand_illegal hw s⟩
  | instr i => simpa only [runCommand_instr hw] using exec_legal i hX

/-! ## What a command reads -/

/-- Writing the crystal a state holds changes nothing. -/
theorem setCrystal_of_eq {s : State} {X : Crystal} (h : s.xtalHz = X) : s.setCrystal X = s := by
  subst h
  rfl

/-- A conversion reads `XTAL_HZ` only: at one crystal it stops everywhere or answers the same everywhere. -/
theorem convert_of_same_crystal (f : Nat → Option Pay) {s t : State} (h : s.xtalHz = t.xtalHz) :
    (convert f s = .fault .zeroCrystal ∧ convert f t = .fault .zeroCrystal) ∨
    ∃ r, convert f s = .next (s.answer r) ∧ convert f t = .next (t.answer r) := by
  by_cases hX : s.xtalHz = 0
  · exact .inl ⟨convert_zero f hX, convert_zero f (h ▸ hX)⟩
  · rw [convert_legal f hX, convert_legal f (h ▸ hX), h]
    cases f t.xtalHz.toNat <;> exact .inr ⟨_, rfl, rfl⟩

/-- An instruction reads `XTAL_HZ` only: at one crystal it stops everywhere, or writes the same crystal and the same
response everywhere (10_state.md R29). -/
theorem exec_of_same_crystal (i : Instr) {s t : State} (h : s.xtalHz = t.xtalHz) :
    (exec i s = .fault .zeroCrystal ∧ exec i t = .fault .zeroCrystal) ∨
    ∃ X r, exec i s = .next ((s.setCrystal X).answer r) ∧ exec i t = .next ((t.setCrystal X).answer r) := by
  rcases exec_shape i with ⟨f, hf⟩ | rfl | ⟨x, rfl⟩ | ⟨r, hr⟩
  · rw [hf, hf]
    refine (convert_of_same_crystal f h).imp_right ?_
    rintro ⟨r, hs, ht⟩
    exact ⟨t.xtalHz, r, by rwa [setCrystal_of_eq h], ht⟩
  · refine .inr ⟨t.xtalHz, .ok (t.xtalHz.setWidth _), ?_, rfl⟩
    rw [setCrystal_of_eq h, ← h]
    rfl
  · by_cases hx : x = 0
    · subst hx
      exact .inr ⟨t.xtalHz, .error .domainError, by rw [setCrystal_of_eq h]; rfl, rfl⟩
    · exact .inr ⟨x, .ok 0, execXtalSet_ne hx s, execXtalSet_ne hx t⟩
  · exact .inr ⟨t.xtalHz, r, by rw [setCrystal_of_eq h, hr], hr t⟩

/-- A command reads `XTAL_HZ` only. -/
theorem runCommand_of_same_crystal (w : Word) {s t : State} (h : s.xtalHz = t.xtalHz) :
    (runCommand w s = .fault .zeroCrystal ∧ runCommand w t = .fault .zeroCrystal) ∨
    ∃ X r, runCommand w s = .next ((s.setCrystal X).answer r) ∧
      runCommand w t = .next ((t.setCrystal X).answer r) := by
  cases hw : decode w with
  | instr i => simpa only [runCommand_instr hw] using exec_of_same_crystal i h
  | illegal why =>
    refine .inr ⟨t.xtalHz, .error .illegalCommand, ?_, runCommand_illegal hw t⟩
    rw [setCrystal_of_eq h]
    exact runCommand_illegal hw s

/-! ## Steps -/

/-- With a command presented, the step runs it. -/
theorem step_command {s : State} {w : Word} {rest : List HostEvent} (h : s.port = .command w :: rest) :
    step s = runCommand w { s with port := rest } := step_cons_eq h

/-- A step that answers a next state ran a command or was a reset, of the interaction it took from the port. -/
theorem step_next {s t : State} (h : step s = .next t) :
    ∃ e rest, s.port = e :: rest ∧
      ((∃ w, e = .command w ∧ runCommand w { s with port := rest } = .next t) ∨
       ((e = .reset ∨ ∃ w, e = .commandCutByReset w) ∧ t = { State.reset with port := rest })) := by
  cases hp : s.port with
  | nil => cases (step_nil_eq hp).symm.trans h
  | cons e rest =>
    have he : takeEvent e { s with port := rest } = .next t := (step_cons_eq hp).symm.trans h
    refine ⟨e, rest, rfl, ?_⟩
    cases e with
    | command w => exact .inl ⟨w, rfl, he⟩
    | reset => cases he; exact .inr ⟨.inl rfl, rfl⟩
    | commandCutByReset w => cases he; exact .inr ⟨.inr ⟨w, rfl⟩, rfl⟩
    | overlappingCommands a b => cases he

/-- The crystal a command leaves. -/
theorem runCommand_xtalHz {w : Word} {s t : State} (h : runCommand w s = .next t) :
    t.xtalHz = (newCrystal w).getD s.xtalHz := by
  rcases runCommand_next h with ⟨x, hx, rfl⟩ | ⟨hw, r, rfl⟩
  · simp [hx]
  · simp [hw]

/-- A step leaves the rest of the port and the crystal that `crystalAfterEvent` gives for the interaction it took. -/
theorem step_port_xtalHz {s t : State} (h : step s = .next t) :
    ∃ e, s.port = e :: t.port ∧ t.xtalHz = crystalAfterEvent s.xtalHz e := by
  obtain ⟨e, rest, hp, ⟨w, rfl, hw⟩ | ⟨rfl | ⟨w, rfl⟩, rfl⟩⟩ := step_next h
  · refine ⟨.command w, ?_, (runCommand_xtalHz hw :)⟩
    rcases runCommand_next hw with ⟨x, -, rfl⟩ | ⟨-, r, rfl⟩ <;> exact hp
  · exact ⟨_, hp, rfl⟩
  · exact ⟨_, hp, rfl⟩

/-! ## The crystal stays legal -/

/-- The reset value is legal (10_state.md R28). -/
theorem xtalReset_ne_zero : Config.xtalReset ≠ 0 := by decide

/-- No interaction makes a legal crystal zero: `XTAL.SET` writes a nonzero one only, reset writes the reset value. -/
theorem crystalAfterEvent_ne_zero {X : Crystal} (hX : X ≠ 0) (e : HostEvent) : crystalAfterEvent X e ≠ 0 := by
  cases e with
  | command w =>
    cases hw : newCrystal w with
    | none => simpa [crystalAfterEvent, hw] using hX
    | some x => simpa [crystalAfterEvent, hw] using (newCrystal_eq_some_iff.1 hw).2
  | reset => exact xtalReset_ne_zero
  | commandCutByReset w => exact xtalReset_ne_zero
  | overlappingCommands a b => exact hX

/-- Settles O37: the next crystal is that of `crystalAfterEvent`, which keeps it nonzero. -/
theorem stepKeepsTheCrystalLegal : Obligations.StepKeepsTheCrystalLegal := by
  intro s t hX h
  obtain ⟨e, -, ht⟩ := step_port_xtalHz h
  rw [LegalCrystal, ht]
  exact crystalAfterEvent_ne_zero hX e

/-- Settles O38: the reset value of `XTAL_HZ` is a nonzero parameter. -/
theorem resetCrystalIsLegal : Obligations.ResetCrystalIsLegal := xtalReset_ne_zero

/-- Settles O9, by the value of `XTAL_RESET`. -/
theorem resetStateHoldsDefaultCrystal : Obligations.ResetStateHoldsDefaultCrystal := by
  unfold Obligations.ResetStateHoldsDefaultCrystal
  rw [reset_xtalHz]
  rfl

/-! ## Frames -/

/-- Settles O35, from the two things an instruction can write (`exec_next`). -/
theorem instructionFrame : Obligations.InstructionFrame := by
  intro i s t h
  rcases exec_next h with ⟨x, rfl, hx, rfl⟩ | ⟨-, r, rfl⟩
  · exact ⟨rfl, ⟨_, rfl⟩, .inr ⟨x, rfl, hx, rfl⟩⟩
  · exact ⟨rfl, ⟨r, rfl⟩, .inl rfl⟩

/-- Settles O39, by the kinds of step: of the commands only a successful `XTAL.SET` changes the crystal. -/
theorem crystalWrittenOnlyBySetOrReset : Obligations.CrystalWrittenOnlyBySetOrReset := by
  intro s t h hne
  obtain ⟨e, rest, hp, ⟨w, rfl, hw⟩ | ⟨he, rfl⟩⟩ := step_next h
  · rcases runCommand_next hw with ⟨x, hx, rfl⟩ | ⟨-, r, rfl⟩
    · obtain ⟨hdec, hx0⟩ := newCrystal_eq_some_iff.1 hx
      exact .inl ⟨w, x, rest, hp, hdec, hx0, rfl, rfl⟩
    · exact absurd rfl hne
  · refine .inr ⟨?_, rfl⟩
    rcases he with rfl | ⟨w, rfl⟩
    · exact .inl ⟨rest, hp⟩
    · exact .inr ⟨w, rest, hp⟩

/-! ## What a step reads -/

/-- Settles O40: both steps run the command at one crystal (`runCommand_of_same_crystal`), and a legal one
excludes a stop. -/
theorem responseDependsOnCommandAndCrystal : Obligations.ResponseDependsOnCommandAndCrystal := by
  intro s t w rs rt hX hs ht hst
  rw [step_command hs, step_command ht]
  obtain ⟨u, hu⟩ := runCommand_legal w (s := { s with port := rs }) hX
  rcases runCommand_of_same_crystal w (s := { s with port := rs }) (t := { t with port := rt }) hst with
    ⟨hfault, -⟩ | ⟨X, r, hs', ht'⟩
  · cases hfault.symm.trans hu
  · exact ⟨_, _, hs', ht', ⟨r, rfl⟩, rfl, rfl, (runCommand_xtalHz hs' :)⟩

/-- No interaction reads what the response port carried: a command reads the crystal only, and a reset
reads the port. -/
theorem takeEvent_response (e : HostEvent) (s : State) (r : Option Response) :
    takeEvent e { s with response := r } = takeEvent e s := by
  cases e with
  | command w =>
    rcases runCommand_of_same_crystal w (s := { s with response := r }) (t := s) rfl with
      ⟨hr, hs⟩ | ⟨X, q, hr, hs⟩ <;> exact hr.trans hs.symm
  | reset => rfl
  | commandCutByReset w => rfl
  | overlappingCommands a b => rfl

/-- Settles O41: the step takes the same interaction, which does not read the response (`takeEvent_response`). -/
theorem responseIsNeverRead : Obligations.ResponseIsNeverRead := by
  rintro ⟨X, port, q⟩ r
  cases port with
  | nil => rfl
  | cons e rest =>
    change takeEvent e ⟨X, rest, r⟩ = takeEvent e ⟨X, rest, q⟩
    exact takeEvent_response e ⟨X, rest, q⟩ r

/-! ## The zero crystal -/

/-- `XTAL.SET` is answered in every state. -/
theorem execXtalSet_answers (x : Crystal) (s : State) : ∃ t, execXtalSet x s = .next t := by
  by_cases hx : x = 0
  · exact ⟨_, if_pos hx⟩
  · exact ⟨_, execXtalSet_ne hx s⟩

/-- `BF.EXT` is answered in every state. -/
theorem execBfExt_answers (byte : Byte) (hi lo : BitIndex) (s : State) : ∃ t, execBfExt byte hi lo s = .next t := by
  unfold execBfExt
  split <;> exact ⟨_, rfl⟩

/-- `BF.INS` is answered in every state. -/
theorem execBfIns_answers (byte : Byte) (hi lo : BitIndex) (value : Byte) (s : State) :
    ∃ t, execBfIns byte hi lo value s = .next t := by
  unfold execBfIns
  split
  · exact ⟨_, rfl⟩
  · split <;> exact ⟨_, rfl⟩

/-- An outcome that is a next state is no fault. -/
theorem ne_fault_of_answers {o : StepResult} (h : ∃ t, o = .next t) (f : Fault) : o ≠ .fault f := by
  obtain ⟨t, rfl⟩ := h
  nofun

/-- Settles O12, by the instruction: the six conversions stop at a zero crystal, the four others are always answered. -/
theorem conversionsHaveNoStepAtZeroCrystal : Obligations.ConversionsHaveNoStepAtZeroCrystal := by
  intro s i hX
  cases i with
  | xtalGet => exact iff_of_false (ne_fault_of_answers ⟨_, rfl⟩ _) (by simp)
  | xtalSet x => exact iff_of_false (ne_fault_of_answers (execXtalSet_answers x s) _) (by simp)
  | bfExt byte hi lo => exact iff_of_false (ne_fault_of_answers (execBfExt_answers byte hi lo s) _) (by simp)
  | bfIns byte hi lo value =>
    exact iff_of_false (ne_fault_of_answers (execBfIns_answers byte hi lo value s) _) (by simp)
  | fcwDec b0 b1 b2 => exact iff_of_true (convert_zero _ hX : execFcwDec b0 b1 b2 s = _) (by simp)
  | fcwEnc h => exact iff_of_true (convert_zero _ hX : execFcwEnc h s = _) (by simp)
  | fbwDec m e => exact iff_of_true (convert_zero _ hX : execFbwDec m e s = _) (by simp)
  | fbwEnc h => exact iff_of_true (convert_zero _ hX : execFbwEnc h s = _) (by simp)
  | srDec m e => exact iff_of_true (convert_zero _ hX : execSrDec m e s = _) (by simp)
  | srEnc r => exact iff_of_true (convert_zero _ hX : execSrEnc r s = _) (by simp)

end Sys2Proof.Machine
end

section
/-! What a command reads of the crystal that the interactions before it left (20_memory.md). -/

namespace Sys2Proof

/-! ## Reading the fields of a command word back -/

/-- A field of the payload stands in the same bits of the word. -/
theorem extract_joinWord (top : Byte) (pay : Pay) {a n : Nat} (h : a + n ≤ 56) :
    (joinWord top pay).extractLsb' a n = pay.extractLsb' a n :=
  BitVec.extractLsb'_append_eq_of_add_le h

/-- A field of the payload is read back whole. -/
theorem extract_payAt_same {n : Nat} (v : BitVec n) {a : Nat} (h : a + n ≤ 56) :
    (payAt v a).extractLsb' a n = v := by
  apply BitVec.eq_of_getLsbD_eq
  intro k hk
  have hak : a + k < 56 := by omega
  rw [BitVec.getLsbD_extractLsb', payAt_getLsbD]
  simp [hk, hak]

/-- A field of the payload has no bit in the range of another field. -/
theorem extract_payAt_disjoint {n m : Nat} (v : BitVec n) {a b : Nat} (h : a + n ≤ b ∨ b + m ≤ a) :
    (payAt v a).extractLsb' b m = 0#m := by
  apply BitVec.eq_of_getLsbD_eq
  intro k hk
  rw [BitVec.getLsbD_extractLsb', payAt_getLsbD, BitVec.getLsbD_zero]
  rcases h with h | h
  · have hn : n ≤ b + k - a := by omega
    simp [BitVec.getLsbD_of_ge v _ hn]
  · have ha : b + k < a := by omega
    simp [ha]

/-- A field of the payload keeps clear of a mask that has no bit in its range. -/
theorem payAt_and_eq_zero {n : Nat} (v : BitVec n) {a : Nat} {mask : Pay} (h : mask.extractLsb' a n = 0#n) :
    payAt v a &&& mask = 0#56 := by
  apply BitVec.eq_of_getLsbD_eq
  intro k hk
  rw [BitVec.getLsbD_and, payAt_getLsbD, BitVec.getLsbD_zero]
  by_cases hak : k < a
  · simp [hak]
  by_cases hn : n ≤ k - a
  · simp [BitVec.getLsbD_of_ge v _ hn]
  have hbit : mask.getLsbD (a + (k - a)) = false := by
    simpa [Nat.lt_of_not_le hn] using congrArg (BitVec.getLsbD · (k - a)) h
  rw [Nat.add_sub_cancel' (Nat.le_of_not_lt hak)] at hbit
  rw [hbit, Bool.and_false]

/-- The decoder reads the command word of an instruction back: the operation code selects its row, no reserved bit is
set, and each field is read from its own bits (30_encoding.md R63, R70). -/
theorem decode_encode (i : Instr) : decode (encode i) = .instr i := by
  rw [decode_eq, encode, opField_joinWord, payField_joinWord]
  cases i <;>
    simp [Instr.op, Instr.pay, BitVec.and_or_distrib_right, payAt_and_eq_zero, extract_joinWord, BitVec.extractLsb'_or,
      extract_payAt_same, extract_payAt_disjoint]

end Sys2Proof

namespace Sys2Proof.Machine

/-! ## The interactions of a host that waits -/

/-- A response of `exec` is the answer of its instruction. -/
theorem answerOf_of_exec {i : Instr} {s t : State} (h : exec i s = .next t) : answerOf i s = t.response := by
  rw [answerOf, h]

/-- An interaction of a host that waits is served from every legal state: it leaves the rest of the port and the crystal
that `crystalAfterEvent` gives (60_exceptions.md R190, R206). -/
theorem step_serves {s : State} {e : HostEvent} {rest : List HostEvent} (hX : LegalCrystal s)
    (he : e.oneAtATime = true) (hp : s.port = e :: rest) :
    ∃ t, step s = .next t ∧ t.port = rest ∧ t.xtalHz = crystalAfterEvent s.xtalHz e := by
  have hserved : ∃ t, takeEvent e { s with port := rest } = .next t := by
    cases e with
    | command w => exact runCommand_legal w (s := { s with port := rest }) hX
    | reset => exact ⟨_, rfl⟩
    | commandCutByReset w => exact ⟨_, rfl⟩
    | overlappingCommands a b => cases he
  obtain ⟨t, ht⟩ := hserved
  have hstep : step s = .next t := (step_cons_eq hp).trans ht
  obtain ⟨e', hp', hXt⟩ := step_port_xtalHz hstep
  obtain ⟨rfl, rfl⟩ := List.cons.inj (hp.symm.trans hp')
  exact ⟨t, hstep, rfl, hXt⟩

/-- A list of interactions of a host that waits is served from every legal state, whatever is presented after it: the
crystal left is legal and is that of `crystalAfter` (20_memory.md R47). -/
theorem run_serves (events : List HostEvent) {rest : List HostEvent} (hw : events.all HostEvent.oneAtATime = true)
    {s : State} (hX : LegalCrystal s) (hp : s.port = events ++ rest) :
    ∃ t : State, core.run events.length s = Host.Outcome.next t ∧ t.port = rest ∧ LegalCrystal t ∧
      t.xtalHz = crystalAfter s.xtalHz events := by
  induction events generalizing s with
  | nil => exact ⟨s, run_zero s, hp, hX, rfl⟩
  | cons e es ih =>
    obtain ⟨he, hes⟩ := Bool.and_eq_true_iff.1 hw
    obtain ⟨u, hu, hpu, hXu⟩ := step_serves hX he hp
    obtain ⟨t, ht, hpt, hXt, hcrystal⟩ := ih hes (stepKeepsTheCrystalLegal s u hX hu) hpu
    refine ⟨t, (run_of_step hu es.length).trans ht, hpt, hXt, ?_⟩
    rw [hcrystal, hXu]
    rfl

/-- Settles O44: the earlier interactions are served (`run_serves`), and the step after them executes the decoded command,
which reads nothing but the crystal they left (`exec_of_same_crystal`). -/
theorem commandUsesTheLatestCrystal : Obligations.CommandUsesTheLatestCrystal := by
  intro s earlier later i hX hw hp
  obtain ⟨u, hu, hpu, hXu, hcrystal⟩ := run_serves earlier hw hX hp
  have hstep : step u = exec i { u with port := later } :=
    (step_command hpu).trans (runCommand_instr (decode_encode i) _)
  have hlast : core.run (earlier.length + 1) s = exec i { u with port := later } :=
    (run_then_step earlier.length hu).trans hstep
  rcases exec_of_same_crystal i (s := { u with port := later })
      (t := { s with xtalHz := crystalAfter s.xtalHz earlier }) hcrystal with ⟨hfault, -⟩ | ⟨X, r, hu', hs'⟩
  · obtain ⟨t, ht⟩ := exec_legal i (s := { u with port := later }) hXu
    cases hfault.symm.trans ht
  · exact ⟨_, r, hlast.trans hu', rfl, answerOf_of_exec hs'⟩

end Sys2Proof.Machine
end

section
/-! The rows of the opcode table, and decoding against encoding (30_encoding.md R62, R63, R70). -/

namespace Sys2Proof

/-! ## The rows of the opcode table -/

/-- The mask of each row covers all of `op`, and its pattern has no payload bit (30_encoding.md R70). -/
theorem opcodeTable_fields : ∀ r ∈ opcodeTable,
    r.mask = joinWord 0xFF (payField r.mask) ∧ r.pattern = joinWord (opField r.pattern) 0 := by decide

/-- A word matches a row of the table by its operation code and by zeros in the bits the row reserves. -/
theorem hits_iff_of_mem {r : OpRow} (hr : r ∈ opcodeTable) (w : Word) :
    r.hits w = true ↔ opField w = opField r.pattern ∧ payField w &&& payField r.mask = 0 :=
  hits_iff (opcodeTable_fields r hr).1 (opcodeTable_fields r hr).2 w

/-- The ten operation codes are different (30_encoding.md R62). -/
theorem opcodes_pairwise_ne :
    opcodeTable.Pairwise fun a b => opField a.pattern ≠ opField b.pattern := by decide

/-- Settles O3: a word that matched two rows would have two operation codes. -/
theorem opcodeRowsNeverOverlap : Obligations.OpcodeRowsNeverOverlap := by
  refine opcodes_pairwise_ne.imp_of_mem fun ha hb hne w ⟨hwa, hwb⟩ => hne ?_
  rw [← ((hits_iff_of_mem ha w).1 hwa).1, ((hits_iff_of_mem hb w).1 hwb).1]

/-- The row a word matches is the only one the decoder finds: two would overlap. -/
theorem filter_hits_eq_singleton {r : OpRow} {w : Word} (hr : r ∈ opcodeTable) (hw : r.hits w = true) :
    opcodeTable.filter (·.hits w) = [r] := by
  have hmem : r ∈ opcodeTable.filter (·.hits w) := List.mem_filter.2 ⟨hr, hw⟩
  have hpair := opcodeRowsNeverOverlap.filter (·.hits w)
  match hf : opcodeTable.filter (·.hits w) with
  | [] => simp [hf] at hmem
  | [x] =>
    rw [hf, List.mem_singleton] at hmem
    rw [hmem, hf]
  | x :: y :: rest =>
    rw [hf] at hpair
    have hhits : ∀ a ∈ x :: y :: rest, a.hits w = true := by
      intro a ha
      rw [← hf] at ha
      exact (List.mem_filter.1 ha).2
    have hx := hhits x List.mem_cons_self
    have hy := hhits y (List.mem_cons_of_mem x List.mem_cons_self)
    exact absurd ⟨hx, hy⟩ (List.rel_of_pairwise_cons hpair List.mem_cons_self w)

/-- A word decodes to what the row it matches builds from it, and to nothing else. -/
theorem decode_eq_instr_iff {w : Word} {i : Instr} :
    decode w = .instr i ↔ ∃ r ∈ opcodeTable, r.hits w = true ∧ r.build w = i := by
  constructor
  · intro h
    unfold decode at h
    split at h
    · next r hf =>
      obtain ⟨hr, hw⟩ := List.mem_filter.1 (hf ▸ List.mem_singleton_self r)
      exact ⟨r, hr, hw, Decoded.instr.inj h⟩
    · cases h
  · rintro ⟨r, hr, hw, rfl⟩
    simp only [decode, filter_hits_eq_singleton hr hw]

/-! ## Encoding what was decoded -/

/-- Settles O1, by `decode_encode`: the operation code selects the row, and each operand is read from its own bits. -/
theorem decodeOfEncodeIsIdentity : Obligations.DecodeOfEncodeIsIdentity := decode_encode

/-- A field of a word below bit 56 is a field of its payload. -/
theorem extract_payField (w : Word) {a n : Nat} (h : a + n ≤ 56) :
    w.extractLsb' a n = (payField w).extractLsb' a n := by
  conv_lhs => rw [← joinWord_fields w]
  exact extract_joinWord _ _ h

/-- Cutting a field out of a payload and putting it back in its place keeps the bits of the field only. -/
theorem payAt_extract (p : Pay) (a n : Nat) :
    payAt (p.extractLsb' a n) a = p &&& payAt (BitVec.allOnes n) a := by
  apply BitVec.eq_of_getLsbD_eq
  intro k hk
  rw [BitVec.getLsbD_and, payAt_getLsbD, payAt_getLsbD, BitVec.getLsbD_extractLsb', BitVec.getLsbD_allOnes]
  by_cases hak : k < a
  · simp [hak]
  · rw [Nat.add_sub_cancel' (Nat.le_of_not_lt hak)]
    simp [hk, hak, Bool.and_comm]

/-- Each row builds an instruction with the row's operation code. -/
theorem op_build (w : Word) : ∀ r ∈ opcodeTable, (r.build w).op = opField r.pattern := by
  simp only [opcodeTable, List.cons_append, List.nil_append, List.forall_mem_cons]
  exact ⟨rfl, rfl, rfl, rfl, rfl, rfl, rfl, rfl, rfl, rfl, nofun⟩

/-- Each row builds an instruction that has every payload bit of the word but the reserved ones: the fields of 30_encoding.md
R63 and the reserved bits are the whole payload. -/
theorem pay_build (w : Word) : ∀ r ∈ opcodeTable, (r.build w).pay = payField w &&& ~~~ payField r.mask := by
  have hnone : (0 : Pay) = payField w &&& 0 := BitVec.and_zero.symm
  have hall : payField w = payField w &&& BitVec.allOnes 56 := BitVec.and_allOnes.symm
  have hused {used reserved : Pay} (h : used = ~~~ reserved) :
      payField w &&& used = payField w &&& ~~~ reserved := congrArg (payField w &&& ·) h
  simp only [opcodeTable, List.cons_append, List.nil_append, List.forall_mem_cons, Instr.pay, extract_payField,
    Nat.reduceAdd, Nat.reduceLeDiff, payAt_extract, ← BitVec.and_or_distrib_left, BitVec.extractLsb'_eq_self]
  exact ⟨hnone.trans (hused (by decide)), hused (by decide), hused (by decide), hall.trans (hused (by decide)),
    hused (by decide), hall.trans (hused (by decide)), hused (by decide), hall.trans (hused (by decide)),
    hused (by decide), hused (by decide), nofun⟩

/-- An instruction's command word is the word with its operation code and its payload. -/
theorem encode_eq_iff {i : Instr} {w : Word} : encode i = w ↔ i.op = opField w ∧ i.pay = payField w := by
  conv_lhs => rw [← joinWord_fields w]
  exact joinWord_inj _ _ _ _

/-- Settles O2: the row that matches reserves no bit that is set, so the built instruction has the whole payload
(`pay_build`). -/
theorem encodeOfDecodeIsIdentity : Obligations.EncodeOfDecodeIsIdentity := by
  intro w i h
  obtain ⟨r, hr, hw, rfl⟩ := decode_eq_instr_iff.1 h
  obtain ⟨hop, hpay⟩ := (hits_iff_of_mem hr w).1 hw
  refine encode_eq_iff.2 ⟨(op_build w r hr).trans hop.symm, ?_⟩
  calc (r.build w).pay = payField w &&& ~~~ payField r.mask := pay_build w r hr
    _ = payField w &&& payField r.mask ||| payField w &&& ~~~ payField r.mask := by rw [hpay]; simp
    _ = payField w := by rw [← BitVec.and_or_distrib_left, BitVec.or_not_self, BitVec.and_allOnes]

/-- Settles O4: the decoder evaluated on the ten words. -/
theorem writtenOutWordsDecode : Obligations.WrittenOutWordsDecode := by
  unfold Obligations.WrittenOutWordsDecode
  decide

end Sys2Proof
end

section
/-! Words that are no command, the presented command, and response words (30_encoding.md R60, R61, R64, R65). -/

namespace Sys2Proof

/-! ## Reserved payload bits as numbers -/

/-- A field of a payload as a number. -/
theorem extract_toNat (p : Pay) (a n : Nat) : (p.extractLsb' a n).toNat = p.toNat / 2 ^ a % 2 ^ n := by
  rw [BitVec.extractLsb'_toNat, Nat.shiftRight_eq_div_pow]

/-- A field in its place is zero when it is zero. -/
theorem payAt_eq_zero_iff {n : Nat} (v : BitVec n) {a : Nat} (h : a + n ≤ 56) : payAt v a = 0 ↔ v = 0 := by
  constructor
  · intro h0
    rw [← extract_payAt_same v h, h0]
    exact BitVec.extractLsb'_zero
  · rintro rfl
    simp [payAt]

/-- No bit of a field is set exactly when its number is zero. -/
theorem and_field_eq_zero_iff (p : Pay) {a n : Nat} (h : a + n ≤ 56) :
    p &&& payAt (BitVec.allOnes n) a = 0 ↔ p.toNat / 2 ^ a % 2 ^ n = 0 := by
  rw [← payAt_extract, payAt_eq_zero_iff _ h, ← BitVec.toNat_inj, extract_toNat]
  rfl

/-- No bit from `a` up is set exactly when the payload is below `2^a`. -/
theorem and_upper_eq_zero_iff (p : Pay) {a : Nat} (h : a ≤ 56) :
    p &&& payAt (BitVec.allOnes (56 - a)) a = 0 ↔ p.toNat < 2 ^ a := by
  have hlt : p.toNat / 2 ^ a < 2 ^ (56 - a) := by
    rw [Nat.div_lt_iff_lt_mul (Nat.two_pow_pos a), ← Nat.pow_add, Nat.sub_add_cancel h]
    exact p.isLt
  rw [and_field_eq_zero_iff p (by omega), Nat.mod_eq_of_lt hlt, Nat.div_eq_zero_iff_lt (Nat.two_pow_pos a)]

end Sys2Proof

namespace Sys2Proof.Machine

/-- `rowFields` lists the operation code and the reserved payload bits of each row. -/
theorem map_fields_opcodeTable :
    opcodeTable.map (fun r => (opField r.pattern, payField r.mask)) = rowFields := by decide

/-- A word matches a row exactly when it has the operation code and no reserved bit of an entry of `rowFields`. -/
theorem exists_hits_iff (w : Word) :
    (∃ r ∈ opcodeTable, r.hits w = true) ↔ ∃ f ∈ rowFields, opField w = f.1 ∧ payField w &&& f.2 = 0 := by
  rw [← map_fields_opcodeTable]
  simp only [List.mem_map, exists_exists_and_eq_and]
  exact exists_congr fun r => and_congr_right fun hr => hits_iff_of_mem hr w

/-- The legal words are those that match a row: the reserved bits of each row, as a bound on the payload. -/
theorem legalWord_iff_hits (w : Word) : legalWord w ↔ ∃ r ∈ opcodeTable, r.hits w = true := by
  have hzero : payField w &&& 0xFFFFFFFFFFFFFF#56 = 0#56 ↔ (payField w).toNat = 0 :=
    (and_upper_eq_zero_iff (payField w) (a := 0) (by decide)).trans Nat.lt_one_iff
  have h32 : payField w &&& 0xFFFFFF00000000#56 = 0#56 ↔ (payField w).toNat < 2 ^ 32 :=
    and_upper_eq_zero_iff (payField w) (a := 32) (by decide)
  have h24 : payField w &&& 0xFFFFFFFF000000#56 = 0#56 ↔ (payField w).toNat < 2 ^ 24 :=
    and_upper_eq_zero_iff (payField w) (a := 24) (by decide)
  have h12 : payField w &&& 0xFFFFFFFFFFF000#56 = 0#56 ↔ (payField w).toNat < 2 ^ 12 :=
    and_upper_eq_zero_iff (payField w) (a := 12) (by decide)
  have h22 : payField w &&& 0xFFFFFFFFC00000#56 = 0#56 ↔ (payField w).toNat < 2 ^ 22 :=
    and_upper_eq_zero_iff (payField w) (a := 22) (by decide)
  have h8 : payField w &&& 0xFF00#56 = 0#56 ↔ (payField w).toNat / 2 ^ 8 % 2 ^ 8 = 0 :=
    and_field_eq_zero_iff (payField w) (a := 8) (n := 8) (by decide)
  have hext : payField w &&& 0xFFFFFFFFC0FF00#56 = 0#56 ↔
      (payField w).toNat < 2 ^ 22 ∧ (payField w).toNat / 2 ^ 8 % 2 ^ 8 = 0 := by
    rw [← h22, ← h8, ← BitVec.or_eq_zero_iff, ← BitVec.and_or_distrib_left]
    rfl
  rw [exists_hits_iff]
  simp [legalWord, rowFields, hzero, h32, h24, h12, h22, hext]

/-- The words that decode are the legal ones (30_encoding.md R64, R65). -/
theorem decode_eq_instr_of_legalWord {w : Word} (hw : legalWord w) : ∃ i, decode w = .instr i := by
  obtain ⟨r, hr, hits⟩ := (legalWord_iff_hits w).1 hw
  exact ⟨_, decode_eq_instr_iff.2 ⟨r, hr, hits, rfl⟩⟩

/-- A word that is not legal does not decode. -/
theorem decode_eq_illegal_of_not_legalWord {w : Word} (hw : ¬ legalWord w) : ∃ why, decode w = .illegal why := by
  cases hd : decode w with
  | illegal why => exact ⟨why, rfl⟩
  | instr i =>
    obtain ⟨r, hr, hits, -⟩ := decode_eq_instr_iff.1 hd
    exact absurd ((legalWord_iff_hits w).2 ⟨r, hr, hits⟩) hw

/-! ## IllegalCommand -/

/-- An outcome that is not an IllegalCommand response. -/
def NotIllegalCommand (o : StepResult) : Prop := ∀ t, o = .next t → t.response ≠ some (.error .illegalCommand)

theorem respond_notIllegalCommand (p : Pay) (s : State) : NotIllegalCommand (respond p s) := by
  rintro t ⟨⟩
  nofun

theorem raise_domainError_notIllegalCommand (s : State) : NotIllegalCommand (raise .domainError s) := by
  rintro t ⟨⟩
  nofun

theorem convert_notIllegalCommand (f : Nat → Option Pay) (s : State) : NotIllegalCommand (convert f s) := by
  intro t h
  obtain ⟨-, ⟨p, -, rfl⟩ | ⟨-, rfl⟩⟩ := convert_next h
  · nofun
  · nofun

/-- No instruction answers IllegalCommand: the conversions and the refusals of operand values answer OK or DomainError
(60_exceptions.md R191, R192). -/
theorem exec_notIllegalCommand (i : Instr) (s : State) : NotIllegalCommand (exec i s) := by
  have hok := respond_notIllegalCommand
  have herr := raise_domainError_notIllegalCommand s
  cases i with
  | xtalGet => exact hok _ s
  | xtalSet x =>
    rw [exec_xtalSet, execXtalSet]
    split_ifs
    exacts [herr, hok _ _]
  | bfExt byte hi lo =>
    rw [exec_bfExt, execBfExt]
    split_ifs
    exacts [herr, hok _ s]
  | bfIns byte hi lo value =>
    rw [exec_bfIns, execBfIns]
    split_ifs
    exacts [herr, herr, hok _ s]
  | fcwDec b0 b1 b2 => exact (convert_notIllegalCommand _ s : NotIllegalCommand (execFcwDec b0 b1 b2 s))
  | fcwEnc h => exact (convert_notIllegalCommand _ s : NotIllegalCommand (execFcwEnc h s))
  | fbwDec m e => exact (convert_notIllegalCommand _ s : NotIllegalCommand (execFbwDec m e s))
  | fbwEnc h => exact (convert_notIllegalCommand _ s : NotIllegalCommand (execFbwEnc h s))
  | srDec m e => exact (convert_notIllegalCommand _ s : NotIllegalCommand (execSrDec m e s))
  | srEnc r => exact (convert_notIllegalCommand _ s : NotIllegalCommand (execSrEnc r s))

/-- Settles O5: the words that do not decode are those that are not legal, and no instruction answers IllegalCommand
(`exec_notIllegalCommand`). -/
theorem illegalCommandExactlyOnIllegalWords : Obligations.IllegalCommandExactlyOnIllegalWords := by
  refine ⟨fun s w rest hp => ⟨fun hw => ?_, fun hw t ht => ?_⟩, rfl⟩
  · obtain ⟨why, hd⟩ := decode_eq_illegal_of_not_legalWord hw
    exact (step_command hp).trans (runCommand_illegal hd _)
  · obtain ⟨i, hd⟩ := decode_eq_instr_of_legalWord hw
    rw [step_command hp, runCommand_instr hd] at ht
    exact exec_notIllegalCommand i _ t ht

/-! ## Response words -/

/-- Settles O6, from the two fields a response word is put together from. -/
theorem responseWordHasStatusAndPayload : Obligations.ResponseWordHasStatusAndPayload := by
  intro r
  rw [Response.word, opField_joinWord, payField_joinWord]
  refine ⟨?_, ?_, ?_, ?_⟩
  · rintro p rfl
    exact ⟨rfl, rfl⟩
  · rintro rfl
    rfl
  · rintro rfl
    rfl
  · intro h
    cases r with
    | ok p => exact absurd rfl h
    | error e => rfl

/-! ## The presented command -/

/-- Settles O7: the step runs the command at the head of the port, and running it decodes it. -/
theorem stepRunsThePresentedCommand : Obligations.StepRunsThePresentedCommand :=
  fun _ _ _ _ hp hd => (step_command hp).trans (runCommand_instr hd _)

/-- A word handed over as a number of 64 bits is the word. -/
theorem ofNat_toNat_mod (w : Word) : BitVec.ofNat 64 (w.toNat % 2 ^ 64) = w := by
  rw [Nat.mod_eq_of_lt w.isLt, BitVec.ofNat_toNat, BitVec.setWidth_eq]

/-- A word that decodes is read from its number. -/
theorem decodeTableWord_toNat {w : Word} {i : Instr} (h : decode w = .instr i) :
    decodeTableWord 64 w.toNat = some i := by
  have hlt : w.toNat % 2 ^ 64 < 2 ^ Config.cmdW := Nat.mod_lt _ (by decide)
  rw [decodeTableWord, if_pos hlt, ofNat_toNat_mod, h]

/-- Settles O8: the word placed is the command word itself, and it decodes to its instruction (`decode_encode`). -/
theorem fetchWordRunsTheInstruction : Obligations.FetchWordRunsTheInstruction := by
  intro i s
  have hport : (s.withFetchWord 64 (encode i).toNat).port = .command (encode i) :: s.port := by
    rw [State.withFetchWord, presentNext_port, ofNat_toNat_mod]
  exact ⟨decodeTableWord_toNat (decode_encode i),
    stepRunsThePresentedCommand _ _ i _ hport (decode_encode i)⟩

end Sys2Proof.Machine
end

section
/-! The assembler (30_encoding.md R67, R68, R69). -/

namespace Sys2Proof

/-! ## Literal helpers -/

/-- A literal helper gives the exact product as natural numbers, where it fits (30_encoding.md R68). -/
theorem scaled_eq_some_iff (frac : Nat) (d : Decimal) (n : Nat) :
    d.scaled frac = some n ↔ n * 10 ^ d.places = d.digits * 2 ^ frac ∧ n < 2 ^ Config.payW := by
  have hpos : 0 < 10 ^ d.places := Nat.pow_pos (by decide)
  rw [Decimal.scaled, Option.ite_none_right_eq_some, Option.some_inj]
  constructor
  · rintro ⟨⟨hmod, hlt⟩, rfl⟩
    exact ⟨Nat.div_mul_cancel (Nat.dvd_of_mod_eq_zero hmod), hlt⟩
  · rintro ⟨hn, hlt⟩
    rw [← hn, Nat.mul_mod_left, Nat.mul_div_cancel n hpos]
    exact ⟨⟨rfl, hlt⟩, rfl⟩

/-- The product is exact as natural numbers when it is exact as rational ones. -/
theorem mul_pow_eq_iff_rat (frac : Nat) (d : Decimal) (n : Nat) :
    n * 10 ^ d.places = d.digits * 2 ^ frac ↔ (n : ℚ) = d.digits / 10 ^ d.places * 2 ^ frac := by
  have hpos : (10 : ℚ) ^ d.places ≠ 0 := by positivity
  rw [div_mul_eq_mul_div, eq_div_iff hpos]
  exact_mod_cast Iff.rfl

/-- Settles O46, for the 16 fraction bits of `HZ` and the 28 of `BAUD`. -/
theorem literalHelpersAreExact : Obligations.LiteralHelpersAreExact := by
  intro d n
  rw [← mul_pow_eq_iff_rat, ← mul_pow_eq_iff_rat]
  exact ⟨scaled_eq_some_iff 16 d n, scaled_eq_some_iff 28 d n⟩

/-! ## Operands -/

/-- An operand has a value that fits a field of `w` bits. -/
def Literal.fits (a : Literal) (w : Nat) : Bool := a.value.any (· < 2 ^ w)

/-- Operands fit their fields when the first one does and the others do. -/
theorem isSome_fitFields_cons (w : Nat) (ws : List Nat) (a : Literal) (as : List Literal) :
    (fitFields (w :: ws) (a :: as)).isSome = (a.fits w && (fitFields ws as).isSome) := by
  rw [fitFields, Literal.fits]
  cases a.value with
  | none => rfl
  | some v =>
    cases fitFields ws as with
    | none => simp
    | some vs => by_cases hv : v < 2 ^ w <;> simp [hv]

/-- A bit index fits its field. -/
theorem fits_bitIndex (v : BitIndex) : (Literal.num v.toNat).fits 3 = true := decide_eq_true v.isLt

/-- Operands that are plain numbers fit exactly when there is one for each field and each fits it. -/
theorem fitFields_num (ws ns : List Nat) :
    fitFields ws (ns.map .num) = if List.Forall₂ (fun w n => n < 2 ^ w) ws ns then some ns else none := by
  induction ws generalizing ns with
  | nil => cases ns <;> simp [fitFields]
  | cons w ws ih =>
    cases ns with
    | nil => simp [fitFields]
    | cons n ns =>
      simp only [List.map_cons, fitFields, Literal.value, ih, List.forall₂_cons]
      by_cases hns : List.Forall₂ (fun w n => n < 2 ^ w) ws ns
      · simp [hns]
      · simp [hns]

end Sys2Proof

namespace Sys2Proof.Machine

/-! ## Lines -/

/-- Two lines that are both well formed or both not, and expand to one line, assemble alike. -/
theorem assemble_congr {T : FieldTable} {l l' : AsmLine} (hw : l.wellFormed = l'.wellFormed)
    (hx : expand T l = expand T l') : assemble T l = assemble T l' := by
  rw [assemble, assemble, assembleInstr, assembleInstr, hw, hx]

/-- Settles O47: the two lines expand to one, and the field's bit indices always fit, so both are well formed or neither. -/
theorem pseudoInstructionsSubstitute : Obligations.PseudoInstructionsSubstitute := by
  intro T row byte value hrow
  constructor
  · refine assemble_congr ?_ (by simp [expand, hrow])
    simp [AsmLine.wellFormed, Mnemonic.widths, isSome_fitFields_cons, fits_bitIndex]
  · refine assemble_congr ?_ (by simp [expand, hrow])
    simp [AsmLine.wellFormed, Mnemonic.widths, isSome_fitFields_cons, fits_bitIndex]

/-- A line of a mnemonic that is no pseudo-instruction, with plain numbers for operands, assembles exactly when every number
fits its field. -/
theorem assemble_num {T : FieldTable} {mn : Mnemonic} (ns : List Nat)
    (hx : expand T ⟨mn, ns.map .num⟩ = some ⟨mn, ns.map .num⟩) :
    assemble T ⟨mn, ns.map .num⟩ =
      if List.Forall₂ (fun w n => n < 2 ^ w) mn.widths ns then (build mn ns).map encode else none := by
  rw [assemble, assembleInstr, AsmLine.wellFormed, hx]
  simp only [Option.bind_some, fitFields_num]
  by_cases hfit : List.Forall₂ (fun w n => n < 2 ^ w) mn.widths ns
  · simp [hfit]
  · simp [hfit]

/-- Settles O45, mnemonic by mnemonic: `assemble_num` at the widths of its fields. -/
theorem assemblerPlacesOrRefuses : Obligations.AssemblerPlacesOrRefuses := by
  intro T
  refine ⟨?_, fun x => ?_, fun b0 b1 b2 => ?_, fun h => ?_, fun m e => ?_, fun h => ?_, fun m e => ?_, fun r => ?_,
    fun byte hi lo => ?_, fun byte hi lo value => ?_⟩
  · exact (assemble_num [] rfl).trans (by simp [Mnemonic.widths, build])
  · exact (assemble_num [x] rfl).trans (by simp [Mnemonic.widths, build, Config.xtalW])
  · exact (assemble_num [b0, b1, b2] rfl).trans (by simp [Mnemonic.widths, build])
  · exact (assemble_num [h] rfl).trans (by simp [Mnemonic.widths, build, Config.payW])
  · exact (assemble_num [m, e] rfl).trans (by simp [Mnemonic.widths, build])
  · exact (assemble_num [h] rfl).trans (by simp [Mnemonic.widths, build, Config.payW])
  · exact (assemble_num [m, e] rfl).trans (by simp [Mnemonic.widths, build, Config.srMW, Config.srEW])
  · exact (assemble_num [r] rfl).trans (by simp [Mnemonic.widths, build, Config.payW])
  · exact (assemble_num [byte, hi, lo] rfl).trans (by simp [Mnemonic.widths, build])
  · exact (assemble_num [byte, hi, lo, value] rfl).trans (by simp [Mnemonic.widths, build])

end Sys2Proof.Machine
end

section
/-! The frequency control word operations (40_fcw.md). -/

namespace Sys2Proof.Machine

/-! ## Control words and their bytes -/

/-- The three bytes stand in the payload as the big-endian number they are (20_memory.md R42, 30_encoding.md R63). -/
theorem packBytes_toNat (b0 b1 b2 : Byte) : (packBytes b0 b1 b2).toNat = controlWord b0 b1 b2 := by
  have h0 : (payAt b0 16).toNat = b0.toNat * 2 ^ 16 := payAt_toNat b0 16 (by norm_num)
  have h1 : (payAt b1 8).toNat = b1.toNat * 2 ^ 8 := payAt_toNat b1 8 (by norm_num)
  have h2 : (payAt b2 0).toNat = b2.toNat := (payAt_toNat b2 0 (by norm_num)).trans (Nat.mul_one _)
  have h01 : (payAt b0 16 ||| payAt b1 8).toNat = (b0.toNat * 2 ^ 8 + b1.toNat) * 2 ^ 8 := by
    rw [or_toNat_of_lt h0 (by omega), h0, h1]
    ring
  rw [packBytes, or_toNat_of_lt h01 (by omega), h01, h2, controlWord]
  ring

/-- A control word has 24 bits. -/
theorem controlWord_lt (b0 b1 b2 : Byte) : controlWord b0 b1 b2 < 2 ^ 24 := by
  unfold controlWord
  omega

/-- A payload of 24 bits is the control word of its three bytes. -/
theorem controlWord_extract {p : Pay} (hp : p.toNat < 2 ^ 24) :
    controlWord (p.extractLsb' 16 8) (p.extractLsb' 8 8) (p.extractLsb' 0 8) = p.toNat := by
  simp only [controlWord, extract_toNat]
  omega

/-- A control word times a crystal fits the payload (40_fcw.md R90). -/
theorem controlWord_mul_crystal_lt (b0 b1 b2 : Byte) (X : Crystal) : controlWord b0 b1 b2 * X.toNat < 2 ^ 56 := calc
  controlWord b0 b1 b2 * X.toNat < 2 ^ 24 * 2 ^ 32 :=
    Nat.mul_lt_mul'' (controlWord_lt b0 b1 b2) X.isLt
  _ = 2 ^ 56 := by norm_num

/-! ## Rounding to the nearest word -/

/-- A quotient rounds to at most `n` exactly when it is below the midpoint after `n`. -/
theorem roundHalfUp_le_iff {a b : Nat} (n : Nat) (hb : 0 < b) : roundHalfUp a b ≤ n ↔ 2 * a < (2 * n + 1) * b := by
  have hmid : (n + 1) * (2 * b) = (2 * n + 1) * b + b := by ring
  rw [roundHalfUp, ← Nat.lt_succ_iff, Nat.div_lt_iff_lt_mul (by omega), Nat.succ_eq_add_one, hmid,
    Nat.add_lt_add_iff_right]

/-- The rounded word fits 24 bits exactly below the threshold of 40_fcw.md R91. -/
theorem roundHalfUp_lt_iff_threshold {h X : Nat} (hX : 0 < X) :
    roundHalfUp h X < 2 ^ 24 ↔ 2 * h < (2 ^ 25 - 1) * X :=
  Nat.lt_succ_iff.trans (roundHalfUp_le_iff (2 ^ 24 - 1) hX)

/-- The multiple of `X` that `h` rounds to is above `h` by `X / 2` at most, and below it by less (40_fcw.md R93). -/
theorem two_mul_roundHalfUp_bounds {h X : Nat} (hX : 0 < X) :
    2 * (roundHalfUp h X * X) ≤ 2 * h + X ∧ 2 * h < 2 * (roundHalfUp h X * X) + X := by
  obtain ⟨hle, hlt⟩ := (roundHalfUp_eq_iff hX).1 (rfl : roundHalfUp h X = _)
  exact ⟨by linarith, by linarith⟩

/-- An operand half a step below a multiple of the step is a tie. -/
theorem exists_tie_of_half_step_below {h w X : Nat} (hX : 0 < X) (hw : 2 * (w * X) = 2 * h + X) :
    ∃ k, 2 * h = (2 * k + 1) * X := by
  cases w with
  | zero => omega
  | succ k => exact ⟨k, by linarith⟩

/-! ## What the two operations answer -/

/-- `FCW.DEC` at a legal crystal answers the product. -/
theorem exec_fcwDec_legal (b0 b1 b2 : Byte) {s : State} (hX : LegalCrystal s) :
    ∃ p : Pay, exec (.fcwDec b0 b1 b2) s = respond p s ∧ p.toNat = controlWord b0 b1 b2 * s.xtalHz.toNat := by
  refine ⟨BitVec.ofNat 56 (controlWord b0 b1 b2 * s.xtalHz.toNat), ?_, ?_⟩
  · rw [exec_fcwDec, execFcwDec, convert_legal _ hX, fcwDecode_eq]
    rfl
  · exact (BitVec.toNat_ofNat _ _).trans (Nat.mod_eq_of_lt (controlWord_mul_crystal_lt b0 b1 b2 s.xtalHz))

/-- `FCW.ENC` at a legal crystal answers the rounded word where it fits 24 bits. -/
theorem exec_fcwEnc_of_lt {h : Pay} {s : State} (hX : LegalCrystal s)
    (hlt : roundHalfUp h.toNat s.xtalHz.toNat < 2 ^ 24) :
    ∃ p : Pay, exec (.fcwEnc h) s = respond p s ∧ p.toNat = roundHalfUp h.toNat s.xtalHz.toNat := by
  refine ⟨BitVec.ofNat 56 (roundHalfUp h.toNat s.xtalHz.toNat), ?_, ?_⟩
  · rw [exec_fcwEnc, execFcwEnc, convert_legal _ hX, fcwEncode_eq, if_neg (Nat.not_le.2 hlt)]
    rfl
  · exact (BitVec.toNat_ofNat _ _).trans (Nat.mod_eq_of_lt (by omega))

/-- `FCW.ENC` at a legal crystal refuses an operand whose rounded word does not fit. -/
theorem exec_fcwEnc_of_le {h : Pay} {s : State} (hX : LegalCrystal s)
    (hle : 2 ^ 24 ≤ roundHalfUp h.toNat s.xtalHz.toNat) : exec (.fcwEnc h) s = raise .domainError s := by
  rw [exec_fcwEnc, execFcwEnc, convert_legal _ hX, fcwEncode_eq, if_pos hle]
  rfl

/-- `FCW.ENC` answers `p` exactly when `p` is the rounded word and has 24 bits. -/
theorem answerOf_fcwEnc_eq_iff {h p : Pay} {s : State} (hX : LegalCrystal s) :
    answerOf (.fcwEnc h) s = some (.ok p) ↔ roundHalfUp h.toNat s.xtalHz.toNat = p.toNat ∧ p.toNat < 2 ^ 24 := by
  rcases Nat.lt_or_ge (roundHalfUp h.toNat s.xtalHz.toNat) (2 ^ 24) with hlt | hle
  · obtain ⟨q, hexec, hq⟩ := exec_fcwEnc_of_lt hX hlt
    rw [answerOf_of_exec hexec, answer_response, Option.some_inj, Response.ok.injEq, ← BitVec.toNat_inj, hq]
    exact ⟨fun hp => ⟨hp, hp ▸ hlt⟩, And.left⟩
  · rw [answerOf_of_exec (exec_fcwEnc_of_le hX hle)]
    exact iff_of_false nofun fun ⟨hp, hlt⟩ => by omega

/-- The distance in hertz of two raw frequencies. -/
theorem abs_hertzOf_sub (h' h : Pay) :
    |hertzOf h' - hertzOf h| = ((|(h'.toNat : ℤ) - h.toNat| : ℤ) : ℚ) / 2 ^ 16 := by
  rw [hertzOf, hertzOf, ← sub_div, abs_div]
  simp [Config.hzFrac]

/-! ## The obligations -/

/-- Settles O15: the payload is the big-endian number (`packBytes_toNat`), and the product fits the response
(`exec_fcwDec_legal`). -/
theorem fcwDecAnswersTheExactProduct : Obligations.FcwDecAnswersTheExactProduct := by
  intro b0 b1 b2 s hX
  obtain ⟨p, hexec, hp⟩ := exec_fcwDec_legal b0 b1 b2 hX
  refine ⟨?_, p, hexec, hp, ?_⟩
  · exact (joinWord_toNat _ _).trans (congrArg (0x10 * 2 ^ 56 + ·) (packBytes_toNat b0 b1 b2))
  · rw [hertzOf, hp, Nat.cast_mul]
    rfl

/-- Settles O16: the rounded word fits 24 bits exactly below the threshold (`roundHalfUp_lt_iff_threshold`). -/
theorem fcwEncAnswersTheNearestWord : Obligations.FcwEncAnswersTheNearestWord := by
  intro h s hX
  have hfits := roundHalfUp_lt_iff_threshold (h := h.toNat) (crystal_pos hX)
  refine ⟨joinWord_toNat _ _, fun hlow => ?_, fun hhigh => ?_⟩
  · obtain ⟨p, hexec, hp⟩ := exec_fcwEnc_of_lt hX (hfits.2 hlow)
    exact ⟨p, hexec, hp ▸ hfits.2 hlow, hp⟩
  · exact exec_fcwEnc_of_le hX (Nat.le_of_not_lt fun hlt => (hfits.1 hlt).not_ge hhigh)

/-- Settles O17: `FCW.DEC` answers a multiple of the crystal, which rounds to its factor (`roundHalfUp_mul`). -/
theorem fcwEncodeAfterDecodeIsIdentity : Obligations.FcwEncodeAfterDecodeIsIdentity := by
  intro b0 b1 b2 s hX
  obtain ⟨h, hexec, hh⟩ := exec_fcwDec_legal b0 b1 b2 hX
  refine ⟨h, answerOf_of_exec hexec, (answerOf_fcwEnc_eq_iff hX).2 ?_⟩
  rw [packBytes_toNat, hh]
  exact ⟨roundHalfUp_mul _ (crystal_pos hX), controlWord_lt b0 b1 b2⟩

/-- Settles O18: `FCW.DEC` answers the multiple of the crystal that the operand was rounded to, which is less than half a
step below the operand or at most half a step above it (`two_mul_roundHalfUp_bounds`), so at half a step it is above. -/
theorem fcwDecodeAfterEncodeWithinHalfStep : Obligations.FcwDecodeAfterEncodeWithinHalfStep := by
  intro h p s hX henc
  obtain ⟨hround, hlt⟩ := (answerOf_fcwEnc_eq_iff hX).1 henc
  obtain ⟨h', hexec, hh'⟩ := exec_fcwDec_legal (p.extractLsb' 16 8) (p.extractLsb' 8 8) (p.extractLsb' 0 8) hX
  rw [controlWord_extract hlt] at hh'
  obtain ⟨habove, hbelow⟩ := two_mul_roundHalfUp_bounds (h := h.toNat) (crystal_pos hX)
  rw [hround, ← hh'] at habove hbelow
  have habs : 2 * |(h'.toNat : ℤ) - h.toNat| ≤ s.xtalHz.toNat := by
    rcases abs_cases ((h'.toNat : ℤ) - h.toNat) with ⟨hd, -⟩ | ⟨hd, -⟩ <;> omega
  refine ⟨h', answerOf_of_exec hexec, habs, ?_, fun heq => ?_⟩
  · have habsQ : (2 : ℚ) * ((|(h'.toNat : ℤ) - h.toNat| : ℤ) : ℚ) ≤ s.xtalHz.toNat := by exact_mod_cast habs
    rw [abs_hertzOf_sub, div_le_div_iff₀ (by norm_num) (by norm_num)]
    linarith
  · have htie : 2 * h'.toNat = 2 * h.toNat + s.xtalHz.toNat := by
      rcases abs_cases ((h'.toNat : ℤ) - h.toNat) with ⟨hd, -⟩ | ⟨hd, -⟩ <;> omega
    exact exists_tie_of_half_step_below (crystal_pos hX) (hh' ▸ htie)

/-- Settles O19: rounding is monotone (`roundHalfUp_mono`), and an operand is accepted exactly when its rounded word fits. -/
theorem fcwEncIsMonotone : Obligations.FcwEncIsMonotone := by
  intro s hX
  refine ⟨fun h1 h2 p1 p2 hle h1ok h2ok => ?_, fun h => ?_⟩
  · rw [← ((answerOf_fcwEnc_eq_iff hX).1 h1ok).1, ← ((answerOf_fcwEnc_eq_iff hX).1 h2ok).1]
    exact roundHalfUp_mono _ hle
  · rw [← roundHalfUp_lt_iff_threshold (crystal_pos hX)]
    constructor
    · rintro ⟨p, hp⟩
      obtain ⟨hround, hlt⟩ := (answerOf_fcwEnc_eq_iff hX).1 hp
      exact hround ▸ hlt
    · intro hlt
      obtain ⟨p, hexec, -⟩ := exec_fcwEnc_of_lt hX hlt
      exact ⟨p, answerOf_of_exec hexec⟩

end Sys2Proof.Machine
end

section
/-! The filter-bandwidth operations (41_filter_bandwidth.md). -/

namespace Sys2Proof.Machine

/-! ## The sixteen pairs -/

/-- The index `i` of a pair in the table of 41_filter_bandwidth.md R112. -/
def fbwIndex (p : Nat × Nat) : Nat := 4 * p.2 + p.1

/-- The table of R112 holds the in-bounds pairs. -/
theorem mem_fbwPairs_iff {p : Nat × Nat} : p ∈ fbwPairs ↔ p.1 ≤ 3 ∧ p.2 ≤ 3 := by
  obtain ⟨m, e⟩ := p
  simp [fbwPairs, Config.fbwMW, Config.fbwEW]
  omega

/-- No two pairs have one index. -/
theorem fbwIndex_inj {p q : Nat × Nat} (hp : p ∈ fbwPairs) (hq : q ∈ fbwPairs) (h : fbwIndex p = fbwIndex q) :
    p = q := by
  have hp' := mem_fbwPairs_iff.1 hp
  have hq' := mem_fbwPairs_iff.1 hq
  unfold fbwIndex at h
  exact Prod.ext (by omega) (by omega)

/-- The table of R112 lists the pairs by index. -/
theorem fbwPairs_sorted : fbwPairs.Pairwise fun p q => fbwIndex p < fbwIndex q := by decide

theorem fbwK_pos (p : Nat × Nat) : 0 < fbwK p := by
  rw [fbwK_eq]
  positivity

/-- The largest `k` is that of `(3, 3)`. -/
theorem fbwK_le {p : Nat × Nat} (hp : p ∈ fbwPairs) : fbwK p ≤ 56 := by
  obtain ⟨hm, he⟩ := mem_fbwPairs_iff.1 hp
  calc fbwK p = (4 + p.1) * 2 ^ p.2 := fbwK_eq p
    _ ≤ (4 + 3) * 2 ^ 3 := Nat.mul_le_mul (by omega) (Nat.pow_le_pow_right (by norm_num) he)

/-- `k` increases along the table: with the mantissa at one exponent, and a larger exponent doubles `4` at least, which is
more than any mantissa adds. -/
theorem fbwK_lt {p q : Nat × Nat} (hp : p ∈ fbwPairs) (hq : q ∈ fbwPairs) (h : fbwIndex p < fbwIndex q) :
    fbwK p < fbwK q := by
  obtain ⟨hpm, -⟩ := mem_fbwPairs_iff.1 hp
  obtain ⟨hqm, -⟩ := mem_fbwPairs_iff.1 hq
  unfold fbwIndex at h
  rw [fbwK_eq, fbwK_eq]
  rcases Nat.lt_or_ge p.2 q.2 with he | he
  · calc (4 + p.1) * 2 ^ p.2 < 8 * 2 ^ p.2 := Nat.mul_lt_mul_of_pos_right (by omega) (Nat.two_pow_pos _)
      _ = 4 * 2 ^ (p.2 + 1) := by ring
      _ ≤ (4 + q.1) * 2 ^ q.2 := Nat.mul_le_mul (by omega) (Nat.pow_le_pow_right (by norm_num) he)
  · have heq : p.2 = q.2 := by omega
    rw [heq]
    exact Nat.mul_lt_mul_of_pos_right (by omega) (Nat.two_pow_pos _)

/-! ## The sixteen bandwidths -/

/-- The bandwidth of a pair is `X / (8 * k)` hertz (41_filter_bandwidth.md R112). -/
theorem bandwidth_eq (X : Nat) (p : Nat × Nat) : bandwidth X p.1 p.2 = X / (8 * fbwK p) := by
  rw [bandwidth, fbwK_eq]
  push_cast
  ring

/-- The bandwidths of two pairs are more than `2^-16` hertz apart, a unit of the HZ format: `k` differs by 1 at least and is
at most 56 (41_filter_bandwidth.md R113). -/
theorem bandwidth_gap {X : Nat} (hX : 0 < X) {p q : Nat × Nat} (hp : p ∈ fbwPairs) (hq : q ∈ fbwPairs)
    (h : fbwIndex p < fbwIndex q) : bandwidth X q.1 q.2 + 1 / 2 ^ 16 < bandwidth X p.1 p.2 := by
  have hp0 : (0 : ℚ) < fbwK p := Nat.cast_pos.2 (fbwK_pos p)
  have hq0 : (0 : ℚ) < fbwK q := Nat.cast_pos.2 (fbwK_pos q)
  have hX1 : (1 : ℚ) ≤ X := by exact_mod_cast hX
  have hdiff : (fbwK p : ℚ) + 1 ≤ fbwK q := by exact_mod_cast fbwK_lt hp hq h
  have hprod : (fbwK p : ℚ) * fbwK q ≤ 56 * 56 := by exact_mod_cast Nat.mul_le_mul (fbwK_le hp) (fbwK_le hq)
  have hgap : bandwidth X p.1 p.2 - bandwidth X q.1 q.2 = X * (fbwK q - fbwK p) / (8 * (fbwK p * fbwK q)) := by
    rw [bandwidth_eq, bandwidth_eq]
    field_simp
  have hbig : (1 : ℚ) / 2 ^ 16 < X * (fbwK q - fbwK p) / (8 * (fbwK p * fbwK q)) := by
    have hone : (1 : ℚ) ≤ X * (fbwK q - fbwK p) := one_le_mul_of_one_le_of_one_le hX1 (by linarith)
    rw [div_lt_div_iff₀ (by norm_num) (by positivity)]
    linarith
  linarith

/-- The table of R112 is in decreasing order of bandwidth. -/
theorem fbwPairs_bandwidth_sorted {X : Nat} (hX : 0 < X) :
    fbwPairs.Pairwise fun p q => bandwidth X q.1 q.2 < bandwidth X p.1 p.2 := by
  refine fbwPairs_sorted.imp_of_mem fun hp hq h => ?_
  have := bandwidth_gap hX hp hq h
  linarith

/-! ## The raw bandwidth -/

/-- A rounded quotient is within a half of the quotient. -/
theorem abs_roundHalfUp_sub_le (a : Nat) {b : Nat} (hb : 0 < b) : |(roundHalfUp a b : ℚ) - a / b| ≤ 1 / 2 := by
  obtain ⟨hle, hlt⟩ := (roundHalfUp_eq_iff hb).1 (rfl : roundHalfUp a b = _)
  have hb' : (0 : ℚ) < b := by exact_mod_cast hb
  have hle' : (2 : ℚ) * roundHalfUp a b * b ≤ 2 * a + b := by exact_mod_cast hle
  have hlt' : (2 : ℚ) * a < (2 * roundHalfUp a b + 1) * b := by exact_mod_cast hlt
  have hlow : (roundHalfUp a b : ℚ) - 1 / 2 ≤ a / b := (le_div_iff₀ hb').2 (by linarith)
  have hhigh : (a / b : ℚ) ≤ roundHalfUp a b + 1 / 2 := (div_le_iff₀ hb').2 (by linarith)
  exact abs_le.2 ⟨by linarith, by linarith⟩

/-- The quotient of R110 in hertz is the bandwidth. -/
theorem bandwidth_eq_quotient (X m : Nat) {e : Nat} (he : e ≤ 13) :
    bandwidth X m e = ((X * 2 ^ (13 - e) : ℕ) : ℚ) / ((4 + m : ℕ) : ℚ) / 2 ^ 16 := by
  have hpow : (2 : ℚ) ^ (13 - e) = 2 ^ 13 / 2 ^ e := by
    rw [eq_div_iff (by positivity), ← pow_add, Nat.sub_add_cancel he]
  rw [bandwidth]
  push_cast
  rw [hpow]
  field_simp
  norm_num

/-- The raw bandwidth is within `2^-17` hertz of the bandwidth (41_filter_bandwidth.md R110). -/
theorem abs_fbwDecode_sub_bandwidth_le (X : Nat) {p : Nat × Nat} (hp : p ∈ fbwPairs) :
    |(fbwDecode X p.1 p.2 : ℚ) / 2 ^ 16 - bandwidth X p.1 p.2| ≤ 1 / 2 ^ 17 := by
  obtain ⟨-, he⟩ := mem_fbwPairs_iff.1 hp
  have hround := abs_roundHalfUp_sub_le (X * 2 ^ (13 - p.2)) (b := 4 + p.1) (by omega)
  rw [fbwDecode_eq, bandwidth_eq_quotient X p.1 (by omega), ← sub_div, abs_div, abs_of_pos (by norm_num : (0 : ℚ) < 2 ^ 16),
    div_le_div_iff₀ (by norm_num) (by norm_num)]
  linarith

/-- The hertz of a raw payload (00_scope.md R10). -/
theorem hertzOf_eq (h : Pay) : hertzOf h = h.toNat / 2 ^ 16 := by rw [hertzOf, Config.hzFrac]

/-- A payload that holds the raw bandwidth denotes the bandwidth to within `2^-17` hertz. -/
theorem abs_hertzOf_sub_bandwidth_le {X m e : Nat} (hp : (m, e) ∈ fbwPairs) {h : Pay} (hh : h.toNat = fbwDecode X m e) :
    |hertzOf h - bandwidth X m e| ≤ 1 / 2 ^ 17 := by
  rw [hertzOf_eq, hh]
  exact (abs_fbwDecode_sub_bandwidth_le X hp :)

/-- With mantissa 0 the division is by 4, which is exact (41_filter_bandwidth.md R110). -/
theorem fbwDecode_mantissa_zero (X : Nat) {e : Nat} (he : e ≤ 3) : fbwDecode X 0 e = X * 2 ^ (11 - e) := by
  have hfour : X * 2 ^ (13 - e) = X * 2 ^ (11 - e) * (4 + 0) := by
    rw [show 13 - e = 11 - e + 2 by omega]
    ring
  rw [fbwDecode_eq, hfour, roundHalfUp_mul _ (by norm_num)]

/-- With mantissa 0 the raw bandwidth is the bandwidth. -/
theorem fbwDecode_mantissa_zero_eq_bandwidth (X : Nat) {e : Nat} (he : e ≤ 3) :
    (fbwDecode X 0 e : ℚ) / 2 ^ 16 = bandwidth X 0 e := by
  rw [fbwDecode_mantissa_zero X he, bandwidth_eq_quotient X 0 (by omega), show 13 - e = 11 - e + 2 by omega]
  push_cast
  ring

/-- The raw bandwidths are strictly decreasing along the table: each is within half a unit of the exact one, and two exact
ones are more than a unit apart. -/
theorem fbwDecode_lt {X : Nat} (hX : 0 < X) {p q : Nat × Nat} (hp : p ∈ fbwPairs) (hq : q ∈ fbwPairs)
    (h : fbwIndex p < fbwIndex q) : fbwDecode X q.1 q.2 < fbwDecode X p.1 p.2 := by
  have hgap := bandwidth_gap hX hp hq h
  have hperr := (abs_le.1 (abs_fbwDecode_sub_bandwidth_le X hp)).1
  have hqerr := (abs_le.1 (abs_fbwDecode_sub_bandwidth_le X hq)).2
  have hlt : (fbwDecode X q.1 q.2 : ℚ) < fbwDecode X p.1 p.2 := by linarith
  exact_mod_cast hlt

/-- The raw bandwidths decrease along the table. -/
theorem fbwDecode_le {X : Nat} (hX : 0 < X) {p q : Nat × Nat} (hp : p ∈ fbwPairs) (hq : q ∈ fbwPairs)
    (h : fbwIndex p ≤ fbwIndex q) : fbwDecode X q.1 q.2 ≤ fbwDecode X p.1 p.2 := by
  rcases h.lt_or_eq with h | h
  · exact (fbwDecode_lt hX hp hq h).le
  · rw [fbwIndex_inj hp hq h]

/-- The raw bandwidths lie in the span that `FBW.ENC` accepts (41_filter_bandwidth.md R111). -/
theorem fbwDecode_mem_span {X : Nat} (hX : 0 < X) {p : Nat × Nat} (hp : p ∈ fbwPairs) :
    fbwDecode X 3 3 ≤ fbwDecode X p.1 p.2 ∧ fbwDecode X p.1 p.2 ≤ fbwDecode X 0 0 := by
  obtain ⟨hm, he⟩ := mem_fbwPairs_iff.1 hp
  exact ⟨fbwDecode_le hX (q := (3, 3)) hp (by decide) (by unfold fbwIndex; omega),
    fbwDecode_le hX (p := (0, 0)) (by decide) hp (by unfold fbwIndex; omega)⟩

/-- The raw bandwidths fit the payload (41_filter_bandwidth.md R110). -/
theorem fbwDecode_lt_payload {X : Crystal} (hX : 0 < X.toNat) {p : Nat × Nat} (hp : p ∈ fbwPairs) :
    fbwDecode X.toNat p.1 p.2 < 2 ^ 56 := calc
  fbwDecode X.toNat p.1 p.2 ≤ fbwDecode X.toNat 0 0 := (fbwDecode_mem_span hX hp).2
  _ = X.toNat * 2 ^ 11 := fbwDecode_mantissa_zero _ (by omega)
  _ < 2 ^ 56 := by omega

/-! ## The nearest pair -/

/-- Between the pairs `r` and `q`, 41_filter_bandwidth.md R111 chooses `r` for a frequency: it is at or above their midpoint
where `r` has the larger bandwidth, and below it where `r` has the smaller. -/
def FbwPrefers (X : Nat) (hz : ℚ) (r q : Nat × Nat) : Prop :=
  (bandwidth X q.1 q.2 < bandwidth X r.1 r.2 → bandwidth X r.1 r.2 + bandwidth X q.1 q.2 ≤ 2 * hz) ∧
  (bandwidth X r.1 r.2 < bandwidth X q.1 q.2 → 2 * hz < bandwidth X r.1 r.2 + bandwidth X q.1 q.2)

/-- A pair is chosen over itself. -/
theorem fbwPrefers_refl (X : Nat) (hz : ℚ) (p : Nat × Nat) : FbwPrefers X hz p p :=
  ⟨fun h => absurd h (lt_irrefl _), fun h => absurd h (lt_irrefl _)⟩

/-- The pair chosen is the nearer one, and the one of larger bandwidth where both are equally near. -/
theorem FbwPrefers.nearest {X : Nat} {hz : ℚ} {r q : Nat × Nat} (h : FbwPrefers X hz r q) :
    |bandwidth X r.1 r.2 - hz| ≤ |bandwidth X q.1 q.2 - hz| ∧
    (|bandwidth X r.1 r.2 - hz| = |bandwidth X q.1 q.2 - hz| → bandwidth X q.1 q.2 ≤ bandwidth X r.1 r.2) := by
  obtain ⟨habove, hbelow⟩ := h
  rcases lt_trichotomy (bandwidth X q.1 q.2) (bandwidth X r.1 r.2) with hlt | heq | hgt
  · have hmid := habove hlt
    refine ⟨?_, fun _ => hlt.le⟩
    rw [abs_sub_comm (bandwidth X q.1 q.2), abs_of_nonneg (by linarith : 0 ≤ hz - bandwidth X q.1 q.2)]
    exact abs_le.2 ⟨by linarith, by linarith⟩
  · rw [heq]
    exact ⟨le_rfl, fun _ => le_rfl⟩
  · have hmid := hbelow hgt
    have hnear : |bandwidth X r.1 r.2 - hz| < |bandwidth X q.1 q.2 - hz| := by
      rw [abs_of_pos (by linarith : 0 < bandwidth X q.1 q.2 - hz)]
      exact abs_lt.2 ⟨by linarith, by linarith⟩
    exact ⟨hnear.le, fun heq => absurd heq hnear.ne⟩

/-- The test of one turn of the loop of R111 compares the frequency with the midpoint of two bandwidths. -/
theorem midpoint_le_iff (X : Nat) (h : Pay) (p q : Nat × Nat) :
    X * 2 ^ 12 * (fbwK p + fbwK q) ≤ h.toNat * fbwK p * fbwK q ↔
      bandwidth X p.1 p.2 + bandwidth X q.1 q.2 ≤ 2 * hertzOf h := by
  have hp0 : (0 : ℚ) < fbwK p := Nat.cast_pos.2 (fbwK_pos p)
  have hq0 : (0 : ℚ) < fbwK q := Nat.cast_pos.2 (fbwK_pos q)
  have hsum : bandwidth X p.1 p.2 + bandwidth X q.1 q.2 =
      X * 2 ^ 12 * (fbwK p + fbwK q) / (2 ^ 15 * (fbwK p * fbwK q)) := by
    rw [bandwidth_eq, bandwidth_eq]
    field_simp
    ring
  have hhz : 2 * hertzOf h = h.toNat * fbwK p * fbwK q / (2 ^ 15 * (fbwK p * fbwK q)) := by
    rw [hertzOf_eq]
    field_simp
  rw [hsum, hhz, div_le_div_iff_of_pos_right (by positivity)]
  exact_mod_cast Iff.rfl

/-- The loop of R111, on pairs in decreasing order of bandwidth, ends with one of them that is chosen over each: over the
pairs after it because their midpoints with it are lower than the one it passed, over the pairs before it because their
midpoints with it are higher than the one that it failed. -/
theorem fbwSearch_prefers (X : Nat) (h : Pay) (p : Nat × Nat) (rest : List (Nat × Nat))
    (hsorted : (p :: rest).Pairwise fun p q => bandwidth X q.1 q.2 < bandwidth X p.1 p.2) :
    fbwSearch X h.toNat (p :: rest) ∈ p :: rest ∧
    ∀ q ∈ p :: rest, FbwPrefers X (hertzOf h) (fbwSearch X h.toNat (p :: rest)) q := by
  induction rest generalizing p with
  | nil =>
    refine ⟨List.mem_singleton_self p, fun q hq => ?_⟩
    rw [List.mem_singleton.1 hq]
    exact fbwPrefers_refl X _ p
  | cons q rest ih =>
    obtain ⟨hp, htail⟩ := List.pairwise_cons.1 hsorted
    have hq := (List.pairwise_cons.1 htail).1
    rw [fbwSearch_cons]
    split
    case isTrue hmid =>
      rw [midpoint_le_iff] at hmid
      refine ⟨List.mem_cons_self, List.forall_mem_cons.2 ⟨fbwPrefers_refl X _ p, fun x hx => ?_⟩⟩
      have hxq : bandwidth X x.1 x.2 ≤ bandwidth X q.1 q.2 := by
        rcases List.mem_cons.1 hx with rfl | hx
        · exact le_rfl
        · exact (hq x hx).le
      exact ⟨fun _ => by linarith, fun hlt => absurd hlt (hp x hx).asymm⟩
    case isFalse hmid =>
      rw [midpoint_le_iff, not_le] at hmid
      obtain ⟨hmem, hprefers⟩ := ih q htail
      refine ⟨List.mem_cons_of_mem p hmem, List.forall_mem_cons.2 ⟨?_, hprefers⟩⟩
      have hrp := hp _ hmem
      refine ⟨fun hlt => absurd hlt hrp.asymm, fun _ => ?_⟩
      rcases List.mem_cons.1 hmem with heq | hr
      · rw [heq]
        linarith
      · have hbelow := (hprefers q List.mem_cons_self).2 (hq _ hr)
        have hqp := hp q List.mem_cons_self
        linarith

/-- The pair that R111 finds among the sixteen. -/
theorem fbwSearch_fbwPairs {X : Nat} (hX : 0 < X) (h : Pay) :
    fbwSearch X h.toNat fbwPairs ∈ fbwPairs ∧
    ∀ q ∈ fbwPairs, FbwPrefers X (hertzOf h) (fbwSearch X h.toNat fbwPairs) q := by
  have hsorted := fbwPairs_bandwidth_sorted hX
  rw [fbwPairs_eq] at hsorted ⊢
  exact fbwSearch_prefers X h _ _ hsorted

/-- A frequency within half a unit of the bandwidth of a pair gives this pair: another one as near would have its bandwidth
within a unit (41_filter_bandwidth.md R113). -/
theorem fbwSearch_eq_of_near {X : Nat} (hX : 0 < X) {h : Pay} {p : Nat × Nat} (hp : p ∈ fbwPairs)
    (hnear : |hertzOf h - bandwidth X p.1 p.2| ≤ 1 / 2 ^ 17) : fbwSearch X h.toNat fbwPairs = p := by
  obtain ⟨hr, hprefers⟩ := fbwSearch_fbwPairs hX h
  have hle := (hprefers p hp).nearest.1
  rw [abs_sub_comm] at hnear
  obtain ⟨hrlow, hrhigh⟩ := abs_le.1 (hle.trans hnear)
  obtain ⟨hplow, hphigh⟩ := abs_le.1 hnear
  rcases lt_trichotomy (fbwIndex (fbwSearch X h.toNat fbwPairs)) (fbwIndex p) with hlt | heq | hgt
  · have hgap := bandwidth_gap hX hr hp hlt
    linarith
  · exact fbwIndex_inj hr hp heq
  · have hgap := bandwidth_gap hX hp hr hgt
    linarith

/-! ## What the two operations answer -/

/-- A pair stands in the payload with its exponent above its mantissa (30_encoding.md R63). -/
theorem packPair_toNat (m : Byte) (e : Exponent) : (packPair m e).toNat = e.toNat * 2 ^ 8 + m.toNat := by
  have he : (payAt e 8).toNat = e.toNat * 2 ^ 8 := payAt_toNat e 8 (by norm_num)
  have hm : (payAt m 0).toNat = m.toNat := (payAt_toNat m 0 (by norm_num)).trans (Nat.mul_one _)
  rw [packPair, or_toNat_of_lt he (by omega), he, hm]

/-- The numbers of a pair of the table fit the operands of an instruction. -/
theorem toNat_ofNat_of_mem {p : Nat × Nat} (hp : p ∈ fbwPairs) :
    (BitVec.ofNat 8 p.1).toNat = p.1 ∧ (BitVec.ofNat 4 p.2).toNat = p.2 := by
  obtain ⟨hm, he⟩ := mem_fbwPairs_iff.1 hp
  exact ⟨Nat.mod_eq_of_lt (by omega), Nat.mod_eq_of_lt (by omega)⟩

/-- A pair of the table is one of operands. -/
theorem exists_operands_of_mem {p : Nat × Nat} (hp : p ∈ fbwPairs) :
    ∃ (m : Byte) (e : Exponent), p = (m.toNat, e.toNat) := by
  obtain ⟨hm, he⟩ := toNat_ofNat_of_mem hp
  exact ⟨BitVec.ofNat 8 p.1, BitVec.ofNat 4 p.2, by rw [hm, he]⟩

/-- `FBW.DEC` of an in-bounds pair at a legal crystal answers its raw bandwidth. -/
theorem exec_fbwDec_of_mem {m : Byte} {e : Exponent} {s : State} (hX : LegalCrystal s)
    (hp : (m.toNat, e.toNat) ∈ fbwPairs) :
    ∃ h : Pay, exec (.fbwDec m e) s = respond h s ∧ h.toNat = fbwDecode s.xtalHz.toNat m.toNat e.toNat := by
  refine ⟨BitVec.ofNat 56 (fbwDecode s.xtalHz.toNat m.toNat e.toNat), ?_, ?_⟩
  · rw [exec_fbwDec, execFbwDec, convert_legal _ hX, if_pos ((fbwInBounds_iff _ _).2 (mem_fbwPairs_iff.1 hp))]
    rfl
  · exact (BitVec.toNat_ofNat _ _).trans (Nat.mod_eq_of_lt (fbwDecode_lt_payload (crystal_pos hX) hp))

/-- `FBW.DEC` of a pair of the table, given as numbers. -/
theorem answerOf_fbwDec_ofNat {p : Nat × Nat} {s : State} (hX : LegalCrystal s) (hp : p ∈ fbwPairs) :
    ∃ h : Pay, answerOf (.fbwDec (BitVec.ofNat 8 p.1) (BitVec.ofNat 4 p.2)) s = some (.ok h) ∧
      h.toNat = fbwDecode s.xtalHz.toNat p.1 p.2 := by
  obtain ⟨hm, he⟩ := toNat_ofNat_of_mem hp
  obtain ⟨h, hexec, hh⟩ := exec_fbwDec_of_mem (m := BitVec.ofNat 8 p.1) (e := BitVec.ofNat 4 p.2) hX (by rwa [hm, he])
  exact ⟨h, answerOf_of_exec hexec, by rw [hh, hm, he]⟩

/-- `FBW.DEC` of any other pair at a legal crystal is a DomainError. -/
theorem exec_fbwDec_of_not_mem {m : Byte} {e : Exponent} {s : State} (hX : LegalCrystal s)
    (hp : (m.toNat, e.toNat) ∉ fbwPairs) : exec (.fbwDec m e) s = raise .domainError s := by
  rw [exec_fbwDec, execFbwDec, convert_legal _ hX, if_neg (by rwa [fbwInBounds_iff, ← mem_fbwPairs_iff (p := (_, _))])]
  rfl

/-- `FBW.ENC` at a legal crystal answers, within the span of the sixteen raw bandwidths, the pair that R111 finds. -/
theorem exec_fbwEnc_of_mem_span {h : Pay} {s : State} (hX : LegalCrystal s)
    (hlow : fbwDecode s.xtalHz.toNat 3 3 ≤ h.toNat) (hhigh : h.toNat ≤ fbwDecode s.xtalHz.toNat 0 0)
    {m : Byte} {e : Exponent} (hr : fbwSearch s.xtalHz.toNat h.toNat fbwPairs = (m.toNat, e.toNat)) :
    exec (.fbwEnc h) s = respond (packPair m e) s := by
  rw [exec_fbwEnc, execFbwEnc, convert_legal _ hX, fbwEncode_eq, if_neg (by omega), hr, Option.map_some,
    BitVec.ofNat_toNat, BitVec.ofNat_toNat, BitVec.setWidth_eq, BitVec.setWidth_eq]
  rfl

/-- `FBW.ENC` at a legal crystal refuses a frequency outside that span. -/
theorem exec_fbwEnc_of_not_mem_span {h : Pay} {s : State} (hX : LegalCrystal s)
    (hout : h.toNat > fbwDecode s.xtalHz.toNat 0 0 ∨ h.toNat < fbwDecode s.xtalHz.toNat 3 3) :
    exec (.fbwEnc h) s = raise .domainError s := by
  rw [exec_fbwEnc, execFbwEnc, convert_legal _ hX, fbwEncode_eq, if_pos hout]
  rfl

/-! ## The obligations -/

/-- Settles O20: the answer is the raw bandwidth (`exec_fbwDec_of_mem`), which is half a unit off at most and exact for
mantissa 0. -/
theorem fbwDecAnswersTheRoundedBandwidth : Obligations.FbwDecAnswersTheRoundedBandwidth := by
  intro m e s hX
  refine ⟨?_, fun hm he => ?_, fun hout => ?_⟩
  · rw [Nat.add_assoc]
    exact (joinWord_toNat _ _).trans (congrArg (0x20 * 2 ^ 56 + ·) (packPair_toNat m e))
  · have hp : (m.toNat, e.toNat) ∈ fbwPairs := mem_fbwPairs_iff.2 ⟨hm, he⟩
    obtain ⟨h, hexec, hh⟩ := exec_fbwDec_of_mem hX hp
    refine ⟨h, hexec, hh, abs_hertzOf_sub_bandwidth_le hp hh, fun hm0 => ?_⟩
    rw [hertzOf_eq, hh, hm0]
    exact fbwDecode_mantissa_zero_eq_bandwidth _ he
  · exact exec_fbwDec_of_not_mem hX fun hp => by
      have := mem_fbwPairs_iff.1 hp
      omega

/-- Settles O21: the raw bandwidths decrease along the table (`fbwDecode_lt`). -/
theorem fbwDecStrictlyDecreases : Obligations.FbwDecStrictlyDecreases := by
  intro m e m' e' s hX hm he hm' he' hlt
  have hp : (m, e) ∈ fbwPairs := mem_fbwPairs_iff.2 ⟨hm, he⟩
  have hp' : (m', e') ∈ fbwPairs := mem_fbwPairs_iff.2 ⟨hm', he'⟩
  obtain ⟨h, hans, hh⟩ := answerOf_fbwDec_ofNat hX hp
  obtain ⟨h', hans', hh'⟩ := answerOf_fbwDec_ofNat hX hp'
  refine ⟨h, h', hans, hans', ?_⟩
  rw [hh, hh']
  exact fbwDecode_lt (crystal_pos hX) hp hp' hlt

/-- Settles O22: the loop finds a pair that is chosen over each of the sixteen (`fbwSearch_fbwPairs`), which makes it the
nearest (`FbwPrefers.nearest`). -/
theorem fbwEncAnswersTheNearestPair : Obligations.FbwEncAnswersTheNearestPair := by
  intro h s hX
  have hmax : fbwDecode s.xtalHz.toNat 0 0 = s.xtalHz.toNat * 2 ^ 11 := fbwDecode_mantissa_zero _ (by omega)
  have hmin : fbwDecode s.xtalHz.toNat 3 3 = (2 * (s.xtalHz.toNat * 2 ^ 10) + 7) / 14 := rfl
  rw [← hmax, ← hmin]
  refine ⟨joinWord_toNat _ _, fun hlow hhigh => ?_, exec_fbwEnc_of_not_mem_span hX⟩
  obtain ⟨hmem, hprefers⟩ := fbwSearch_fbwPairs (crystal_pos hX) h
  obtain ⟨m, e, hr⟩ := exists_operands_of_mem hmem
  rw [hr] at hmem hprefers
  obtain ⟨hm, he⟩ := mem_fbwPairs_iff.1 hmem
  exact ⟨m, e, hm, he, exec_fbwEnc_of_mem_span hX hlow hhigh hr, packPair_toNat m e,
    fun m' e' hm' he' => (hprefers (m', e') (mem_fbwPairs_iff.2 ⟨hm', he'⟩)).nearest⟩

/-- Settles O23: the raw bandwidth is in the span and within half a unit of the bandwidth of its pair, which the encoder
then finds (`fbwSearch_eq_of_near`). -/
theorem fbwEncodeAfterDecodeIsIdentity : Obligations.FbwEncodeAfterDecodeIsIdentity := by
  intro m e s hX hm he
  have hp : (m.toNat, e.toNat) ∈ fbwPairs := mem_fbwPairs_iff.2 ⟨hm, he⟩
  obtain ⟨h, hexec, hh⟩ := exec_fbwDec_of_mem hX hp
  obtain ⟨hlow, hhigh⟩ := fbwDecode_mem_span (crystal_pos hX) hp
  have hr : fbwSearch s.xtalHz.toNat h.toNat fbwPairs = (m.toNat, e.toNat) :=
    fbwSearch_eq_of_near (crystal_pos hX) hp (abs_hertzOf_sub_bandwidth_le hp hh)
  exact ⟨h, answerOf_of_exec hexec,
    answerOf_of_exec (exec_fbwEnc_of_mem_span hX (hh ▸ hlow) (hh ▸ hhigh) hr)⟩

end Sys2Proof.Machine
end

section
/-! The symbol-rate operations (42_symbol_rate.md). -/

namespace Sys2Proof.Machine

/-! ## The raw rates of the pairs -/

/-- The rates of an exponent lie from 256 to 511 times its spacing (42_symbol_rate.md R134). -/
theorem srDecode_bounds (X e : Nat) {m : Nat} (hm : m < 256) :
    256 * (2 ^ e * X) ≤ srDecode X m e ∧ srDecode X m e ≤ 511 * (2 ^ e * X) := by
  rw [srDecode_eq, Nat.mul_assoc]
  exact ⟨Nat.mul_le_mul_right _ (by omega), Nat.mul_le_mul_right _ (by omega)⟩

/-- The spacing of an exponent is positive. -/
theorem spacing_pos {X : Nat} (hX : 0 < X) (e : Nat) : 0 < 2 ^ e * X := Nat.mul_pos (Nat.two_pow_pos e) hX

/-- The spacing at least doubles from an exponent to a larger one. -/
theorem two_mul_spacing_le (X : Nat) {e e' : Nat} (h : e < e') : 2 * (2 ^ e * X) ≤ 2 ^ e' * X := calc
  2 * (2 ^ e * X) = 2 ^ (e + 1) * X := by ring
  _ ≤ 2 ^ e' * X := Nat.mul_le_mul_right X (Nat.pow_le_pow_right (by norm_num) h)

/-- The spacing of a 4-bit exponent. -/
theorem spacing_bounds (X : Nat) {e : Nat} (he : e < 16) : X ≤ 2 ^ e * X ∧ 2 ^ e * X ≤ 2 ^ 15 * X :=
  ⟨Nat.le_mul_of_pos_left X (Nat.two_pow_pos e),
    Nat.mul_le_mul_right X (Nat.pow_le_pow_right (by norm_num) (by omega))⟩

/-- A smaller exponent has smaller rates, whatever the mantissas (42_symbol_rate.md R134). -/
theorem srDecode_lt_of_exponent_lt {X m m' e e' : Nat} (hX : 0 < X) (hm : m < 256) (hm' : m' < 256) (h : e < e') :
    srDecode X m e < srDecode X m' e' := by
  have hpos := spacing_pos hX e
  have hspacing := two_mul_spacing_le X h
  have hle := (srDecode_bounds X e hm).2
  have hge := (srDecode_bounds X e' hm').1
  omega

/-- No two pairs have the same rate (42_symbol_rate.md R134). -/
theorem srDecode_inj {X m m' e e' : Nat} (hX : 0 < X) (hm : m < 256) (hm' : m' < 256)
    (h : srDecode X m e = srDecode X m' e') : m = m' ∧ e = e' := by
  rcases Nat.lt_trichotomy e e' with hlt | rfl | hgt
  · exact absurd h (srDecode_lt_of_exponent_lt hX hm hm' hlt).ne
  · rw [srDecode_eq, srDecode_eq, Nat.mul_assoc, Nat.mul_assoc] at h
    have := Nat.eq_of_mul_eq_mul_right (spacing_pos hX e) h
    exact ⟨by omega, rfl⟩
  · exact absurd h (srDecode_lt_of_exponent_lt hX hm' hm hgt).ne'

/-- How far below a pair's rate its range begins, in quarters of its spacing. The midpoint with the next lower rate is half a
spacing below, but a quarter where that rate has a smaller exponent; (0, 0) has no lower rate, and R131 refuses what is more
than half a spacing below it (42_symbol_rate.md R131, log entry 15). -/
def srLowerReach (m e : Nat) : Nat := if m = 0 ∧ e ≠ 0 then 1 else 2

/-- Between a rate and a larger one lie the upper midpoint of the one and the lower midpoint of the other. -/
theorem srDecode_gap {X m m' e e' : Nat} (hX : 0 < X) (hm : m < 256) (hm' : m' < 256)
    (h : srDecode X m' e' < srDecode X m e) :
    2 * srDecode X m' e' + srLowerReach m e * (2 ^ e * X) ≤ 2 * srDecode X m e ∧
      srDecode X m' e' + 2 ^ e' * X ≤ srDecode X m e := by
  rcases Nat.lt_trichotomy e' e with hlt | rfl | hgt
  · have hspacing := two_mul_spacing_le X hlt
    have hle := (srDecode_bounds X e' hm').2
    have hge := (srDecode_bounds X e hm).1
    by_cases hm0 : m = 0
    · rw [srLowerReach, if_pos ⟨hm0, by omega⟩]
      omega
    · have hge1 : 257 * (2 ^ e * X) ≤ srDecode X m e := by
        rw [srDecode_eq, Nat.mul_assoc]
        exact Nat.mul_le_mul_right _ (by omega)
      rw [srLowerReach, if_neg fun hc => hm0 hc.1]
      omega
  · rw [srDecode_eq, srDecode_eq, Nat.mul_assoc, Nat.mul_assoc] at h ⊢
    have hmm : m' < m := by
      have := Nat.lt_of_mul_lt_mul_right h
      omega
    have hstep : (256 + m' + 1) * (2 ^ e' * X) ≤ (256 + m) * (2 ^ e' * X) := Nat.mul_le_mul_right _ (by omega)
    rw [Nat.add_one_mul] at hstep
    rw [srLowerReach, if_neg fun hc => by omega]
    omega
  · exact absurd h (srDecode_lt_of_exponent_lt hX hm hm' hgt).asymm

/-! ## The range of a pair -/

/-- The raw rate `r` lies from the lower midpoint of a pair up to, not including, its upper midpoint. -/
def InSrRange (X r m e : Nat) : Prop :=
  4 * srDecode X m e ≤ 4 * r + srLowerReach m e * (2 ^ e * X) ∧ 4 * r < 4 * srDecode X m e + 2 * (2 ^ e * X)

/-- The range of a pair of operands, in the terms of the obligations. -/
theorem inSrRange_operands_iff (X r : Nat) (m : Byte) (e : Exponent) :
    InSrRange X r m.toNat e.toNat ↔
      4 * ((256 + m.toNat) * 2 ^ e.toNat * X) ≤ 4 * r + (if m = 0 ∧ e ≠ 0 then 1 else 2) * (2 ^ e.toNat * X) ∧
      4 * r < 4 * ((256 + m.toNat) * 2 ^ e.toNat * X) + 2 * (2 ^ e.toNat * X) := by
  have hm : m.toNat = 0 ↔ m = 0 := BitVec.toNat_inj (y := 0#8)
  have he : e.toNat = 0 ↔ e = 0 := BitVec.toNat_inj (y := 0#4)
  simp only [InSrRange, srLowerReach, srDecode_eq, hm, ne_eq, he]

/-- A rate in the range of a pair is at or above the midpoint with every smaller rate of a pair, and below the midpoint with
every larger one. -/
theorem InSrRange.midpoints {X r m m' e e' : Nat} (hX : 0 < X) (hm : m < 256) (hm' : m' < 256) (hr : InSrRange X r m e) :
    (srDecode X m' e' < srDecode X m e → srDecode X m' e' + srDecode X m e ≤ 2 * r) ∧
    (srDecode X m e < srDecode X m' e' → 2 * r < srDecode X m e + srDecode X m' e') := by
  obtain ⟨hlow, hhigh⟩ := hr
  refine ⟨fun h => ?_, fun h => ?_⟩
  · have := (srDecode_gap hX hm hm' h).1
    omega
  · have := (srDecode_gap hX hm' hm h).2
    omega

/-- A rate lies in the range of one pair at most. -/
theorem InSrRange.unique {X r m m' e e' : Nat} (hX : 0 < X) (hm : m < 256) (hm' : m' < 256)
    (hr : InSrRange X r m e) (hr' : InSrRange X r m' e') : m = m' ∧ e = e' := by
  obtain ⟨habove, hbelow⟩ := hr.midpoints (e' := e') hX hm hm'
  obtain ⟨habove', hbelow'⟩ := hr'.midpoints (e' := e) hX hm' hm
  exact srDecode_inj hX hm hm' (by omega)

/-- The ranges lie in the domain of `SR.ENC` (42_symbol_rate.md R131). -/
theorem InSrRange.mem_domain {X r m e : Nat} (hm : m < 256) (he : e < 16) (hr : InSrRange X r m e) :
    511 * X ≤ 2 * r ∧ 2 * r < (2 ^ 25 - 2 ^ 15) * X := by
  obtain ⟨hlow, hhigh⟩ := hr
  obtain ⟨hge, hle⟩ := srDecode_bounds X e hm
  obtain ⟨hspacing, hspacing'⟩ := spacing_bounds X he
  have hreach : srLowerReach m e * (2 ^ e * X) ≤ 2 * (2 ^ e * X) :=
    Nat.mul_le_mul_right _ (by unfold srLowerReach; split <;> omega)
  omega

/-! ## The encoder -/

/-- The loop of 42_symbol_rate.md R131 ends at the first exponent whose rates reach `r`, or after its last turn. -/
theorem srSearch_spec (X r steps e : Nat) :
    (srSearch X r steps e < e + steps → r < 512 * (2 ^ srSearch X r steps e * X)) ∧
    e ≤ srSearch X r steps e ∧ srSearch X r steps e ≤ e + steps ∧
    (e < srSearch X r steps e → 256 * (2 ^ srSearch X r steps e * X) ≤ r) := by
  induction steps generalizing e with
  | zero => exact ⟨fun h => absurd h (lt_irrefl _), le_rfl, le_rfl, fun h => absurd h (lt_irrefl _)⟩
  | succ steps ih =>
    rw [srSearch_succ]
    split
    case isTrue hreach =>
      obtain ⟨hbelow, hge, hle, habove⟩ := ih (e + 1)
      refine ⟨fun h => hbelow (by omega), by omega, by omega, fun _ => ?_⟩
      rcases Nat.eq_or_lt_of_le hge with heq | hlt
      · rw [← heq]
        calc 256 * (2 ^ (e + 1) * X) = 512 * 2 ^ e * X := by ring
          _ ≤ r := hreach
      · exact habove hlt
    case isFalse hreach =>
      exact ⟨fun _ => by rw [← Nat.mul_assoc]; omega, le_rfl, by omega, fun h => absurd h (lt_irrefl _)⟩

/-- The rounded `256 + mantissa` at the exponent of the loop is 256 to 512. -/
theorem roundHalfUp_mem_mantissas {X r e : Nat} (hX : 0 < X) (hdomain : 511 * X ≤ 2 * r)
    (hlow : 0 < e → 256 * (2 ^ e * X) ≤ r) (hhigh : r < 512 * (2 ^ e * X)) :
    256 ≤ roundHalfUp r (2 ^ e * X) ∧ roundHalfUp r (2 ^ e * X) ≤ 512 := by
  have hu := spacing_pos hX e
  refine ⟨Nat.lt_of_not_le fun h => ?_, (roundHalfUp_le_iff 512 hu).2 (by omega)⟩
  have h255 : 2 * r < 511 * (2 ^ e * X) := (roundHalfUp_le_iff 255 hu).1 h
  rcases Nat.eq_zero_or_pos e with rfl | he
  · omega
  · have := hlow he
    omega

/-- Where the rounded `256 + mantissa` is 512, the rate is at or above the midpoint of the last pair of its exponent and the
first of the next, and so in the range of that one (42_symbol_rate.md R132). -/
theorem inSrRange_carry {X r e : Nat} (hX : 0 < X) (hhigh : r < 512 * (2 ^ e * X))
    (hM : roundHalfUp r (2 ^ e * X) = 512) : 1023 * (2 ^ e * X) ≤ 2 * r ∧ InSrRange X r 0 (e + 1) := by
  have hround := ((roundHalfUp_eq_iff (spacing_pos hX e)).1 hM).1
  have hspacing : 2 ^ (e + 1) * X = 2 * (2 ^ e * X) := by ring
  refine ⟨by omega, ?_⟩
  rw [InSrRange, srDecode_eq, Nat.mul_assoc, hspacing, srLowerReach, if_pos ⟨rfl, by omega⟩]
  omega

/-- Where the rounded `256 + mantissa` is below 512, the rate is in the range of the pair it gives. -/
theorem inSrRange_mantissa {X r e : Nat} (hX : 0 < X) (hlow : 0 < e → 256 * (2 ^ e * X) ≤ r)
    (hM : 256 ≤ roundHalfUp r (2 ^ e * X)) : InSrRange X r (roundHalfUp r (2 ^ e * X) - 256) e := by
  obtain ⟨hle, hlt⟩ := (roundHalfUp_eq_iff (spacing_pos hX e)).1 (rfl : roundHalfUp r (2 ^ e * X) = _)
  rw [InSrRange, srDecode_eq, Nat.add_sub_cancel' hM, Nat.mul_assoc]
  rw [Nat.mul_assoc] at hle
  rw [Nat.add_mul, Nat.mul_assoc] at hlt
  refine ⟨?_, by omega⟩
  by_cases hc : roundHalfUp r (2 ^ e * X) - 256 = 0 ∧ e ≠ 0
  · have hM256 : roundHalfUp r (2 ^ e * X) = 256 := by omega
    have := hlow (by omega)
    rw [hM256]
    omega
  · rw [srLowerReach, if_neg hc]
    omega

/-- The rounded `256 + mantissa` at the exponent of the loop gives, after the carry, the pair whose range holds the rate, or
no pair where the carry leaves the exponent. -/
theorem srCarry_cases {X r e : Nat} (hX : 0 < X) (he : e < 16) (hdomain : 511 * X ≤ 2 * r)
    (hlow : 0 < e → 256 * (2 ^ e * X) ≤ r) (hhigh : r < 512 * (2 ^ e * X)) :
    (srCarry (roundHalfUp r (2 ^ e * X)) e = none ∧ 2 * r ≥ (2 ^ 25 - 2 ^ 15) * X) ∨
    ∃ m e', m < 256 ∧ e' < 16 ∧ srCarry (roundHalfUp r (2 ^ e * X)) e = some (m, e') ∧ InSrRange X r m e' := by
  obtain ⟨hge, hle⟩ := roundHalfUp_mem_mantissas hX hdomain hlow hhigh
  rw [srCarry_eq]
  split_ifs with hM htop
  · have hcarry := (inSrRange_carry hX hhigh hM).1
    obtain rfl : e = 15 := by omega
    exact .inl ⟨rfl, by omega⟩
  · exact .inr ⟨0, e + 1, by omega, by omega, rfl, (inSrRange_carry hX hhigh hM).2⟩
  · exact .inr ⟨_, e, by omega, he, rfl, inSrRange_mantissa hX hlow hge⟩

/-- What the encoder gives: nothing, outside its domain, or the pair whose range holds the rate (42_symbol_rate.md R131). -/
theorem srEncode_cases {X : Nat} (hX : 0 < X) (r : Nat) :
    (srEncode X r = none ∧ (2 * r < 511 * X ∨ 2 * r ≥ (2 ^ 25 - 2 ^ 15) * X)) ∨
    ∃ m e, m < 256 ∧ e < 16 ∧ srEncode X r = some (m, e) ∧ InSrRange X r m e := by
  obtain ⟨hhigh, -, hle, hlow⟩ := srSearch_spec X r 16 0
  rw [srEncode_eq]
  split_ifs with hbelow htop
  · exact .inl ⟨rfl, .inl hbelow⟩
  · rw [htop] at hlow
    have := hlow (by omega)
    exact .inl ⟨rfl, .inr (by omega)⟩
  · rw [Nat.mul_comm X]
    have he : srSearch X r 16 0 < 16 := by omega
    exact (srCarry_cases hX he (by omega) hlow (hhigh he)).imp_left fun ⟨hnone, hr⟩ => ⟨hnone, .inr hr⟩

/-- The encoder finds the pair whose range holds the rate. -/
theorem srEncode_of_inSrRange {X r m e : Nat} (hX : 0 < X) (hm : m < 256) (he : e < 16) (hr : InSrRange X r m e) :
    srEncode X r = some (m, e) := by
  rcases srEncode_cases hX r with ⟨-, hout⟩ | ⟨m', e', hm', -, henc, hr'⟩
  · have := hr.mem_domain hm he
    omega
  · obtain ⟨rfl, rfl⟩ := hr.unique hX hm hm' hr'
    exact henc

/-! ## What the two operations answer -/

/-- `SR.DEC` at a legal crystal answers the raw rate of the pair, which fits the payload. -/
theorem exec_srDec_legal (m : Mantissa) (e : Exponent) {s : State} (hX : LegalCrystal s) :
    ∃ p : Pay, exec (.srDec m e) s = respond p s ∧ p.toNat = srDecode s.xtalHz.toNat m.toNat e.toNat := by
  refine ⟨BitVec.ofNat 56 (srDecode s.xtalHz.toNat m.toNat e.toNat), ?_, ?_⟩
  · rw [exec_srDec, execSrDec, convert_legal _ hX]
    rfl
  · have hrate := (srDecode_bounds s.xtalHz.toNat e.toNat m.isLt).2
    have hspacing := (spacing_bounds s.xtalHz.toNat e.isLt).2
    exact (BitVec.toNat_ofNat _ _).trans (Nat.mod_eq_of_lt (by omega))

/-- `SR.ENC` at a legal crystal answers the pair whose range holds the rate. -/
theorem exec_srEnc_of_inSrRange {r : Pay} {m : Byte} {e : Exponent} {s : State} (hX : LegalCrystal s)
    (hr : InSrRange s.xtalHz.toNat r.toNat m.toNat e.toNat) : exec (.srEnc r) s = respond (packPair m e) s := by
  rw [exec_srEnc, execSrEnc, convert_legal _ hX, srEncode_of_inSrRange (crystal_pos hX) m.isLt e.isLt hr,
    Option.map_some, BitVec.ofNat_toNat, BitVec.ofNat_toNat, BitVec.setWidth_eq, BitVec.setWidth_eq]
  rfl

/-- `SR.ENC` at a legal crystal refuses a rate outside the domain, or finds a pair whose range holds it. -/
theorem srEnc_cases (r : Pay) {s : State} (hX : LegalCrystal s) :
    (exec (.srEnc r) s = raise .domainError s ∧
      (2 * r.toNat < 511 * s.xtalHz.toNat ∨ 2 * r.toNat ≥ (2 ^ 25 - 2 ^ 15) * s.xtalHz.toNat)) ∨
    ∃ (m : Byte) (e : Exponent), InSrRange s.xtalHz.toNat r.toNat m.toNat e.toNat := by
  rcases srEncode_cases (crystal_pos hX) r.toNat with ⟨hnone, hout⟩ | ⟨m, e, hm, he, -, hr⟩
  · refine .inl ⟨?_, hout⟩
    rw [exec_srEnc, execSrEnc, convert_legal _ hX, hnone]
    rfl
  · refine .inr ⟨BitVec.ofNat 8 m, BitVec.ofNat 4 e, ?_⟩
    rwa [BitVec.toNat_ofNat, BitVec.toNat_ofNat, Nat.mod_eq_of_lt hm, Nat.mod_eq_of_lt he]

/-- `SR.ENC` at a legal crystal refuses every rate outside the domain. -/
theorem exec_srEnc_of_not_mem_domain {r : Pay} {s : State} (hX : LegalCrystal s)
    (hout : 2 * r.toNat < 511 * s.xtalHz.toNat ∨ 2 * r.toNat ≥ (2 ^ 25 - 2 ^ 15) * s.xtalHz.toNat) :
    exec (.srEnc r) s = raise .domainError s := by
  rcases srEnc_cases r hX with ⟨hraise, -⟩ | ⟨m, e, hr⟩
  · exact hraise
  · have := hr.mem_domain m.isLt e.isLt
    omega

/-- Pairs are read back from their payload. -/
theorem packPair_inj {m m' : Byte} {e e' : Exponent} (h : packPair m e = packPair m' e') : m = m' ∧ e = e' := by
  have hnum := congrArg BitVec.toNat h
  rw [packPair_toNat, packPair_toNat] at hnum
  exact ⟨BitVec.eq_of_toNat_eq (by omega), BitVec.eq_of_toNat_eq (by omega)⟩

/-- `SR.ENC` at a legal crystal answers a pair exactly for the rates in its range. -/
theorem answerOf_srEnc_eq_iff {r : Pay} {m : Byte} {e : Exponent} {s : State} (hX : LegalCrystal s) :
    answerOf (.srEnc r) s = some (.ok (packPair m e)) ↔ InSrRange s.xtalHz.toNat r.toNat m.toNat e.toNat := by
  refine ⟨fun h => ?_, fun hr => answerOf_of_exec (exec_srEnc_of_inSrRange hX hr)⟩
  rcases srEnc_cases r hX with ⟨hraise, -⟩ | ⟨m', e', hr⟩
  · rw [answerOf_of_exec hraise] at h
    cases h
  · rw [answerOf_of_exec (exec_srEnc_of_inSrRange hX hr), answer_response, Option.some_inj, Response.ok.injEq] at h
    obtain ⟨rfl, rfl⟩ := packPair_inj h
    exact hr

/-! ## Rates in baud -/

/-- The symbol rate of a pair is its raw rate in BAUD format (42_symbol_rate.md R130). -/
theorem symbolRate_eq (X m e : Nat) : symbolRate X m e = srDecode X m e / 2 ^ 28 := by
  rw [symbolRate, srDecode_eq]
  push_cast
  rfl

/-- The baud a raw rate denotes, in the number of 00_scope.md R7. -/
theorem baudOf_eq (r : Pay) : baudOf r = r.toNat / 2 ^ 28 := by rw [baudOf, Config.baudFrac]

/-- The distance in baud from a pair to a raw rate. -/
theorem abs_symbolRate_sub_baudOf (X m e : Nat) (r : Pay) :
    |symbolRate X m e - baudOf r| = ((|(srDecode X m e : ℤ) - r.toNat| : ℤ) : ℚ) / 2 ^ 28 := by
  rw [symbolRate_eq, baudOf_eq, ← sub_div, abs_div]
  simp

/-- Of two numbers on the right sides of their midpoint, the chosen one is the nearer, and the larger on a tie. -/
theorem abs_sub_le_of_midpoint {a b r : Nat} (hlow : b < a → b + a ≤ 2 * r) (hhigh : a < b → 2 * r < a + b) :
    |(a : ℤ) - r| ≤ |(b : ℤ) - r| ∧ (|(a : ℤ) - r| = |(b : ℤ) - r| → b ≤ a) := by
  refine ⟨?_, fun htie => ?_⟩
  · rw [abs_le]
    rcases abs_cases ((b : ℤ) - r) with ⟨hb, hs⟩ | ⟨hb, hs⟩ <;> omega
  · rcases abs_eq_abs.1 htie with heq | heq <;> omega

/-- A rate in the range of a pair is nearest to it of all pairs, the larger one on a tie (42_symbol_rate.md R131). -/
theorem InSrRange.nearest {X m m' e e' : Nat} {r : Pay} (hX : 0 < X) (hm : m < 256) (hm' : m' < 256)
    (hr : InSrRange X r.toNat m e) :
    |symbolRate X m e - baudOf r| ≤ |symbolRate X m' e' - baudOf r| ∧
    (|symbolRate X m e - baudOf r| = |symbolRate X m' e' - baudOf r| → symbolRate X m' e' ≤ symbolRate X m e) := by
  obtain ⟨hlow, hhigh⟩ := hr.midpoints (e' := e') hX hm hm'
  obtain ⟨hnear, htie⟩ := abs_sub_le_of_midpoint hlow hhigh
  rw [abs_symbolRate_sub_baudOf, abs_symbolRate_sub_baudOf, div_le_div_iff_of_pos_right (by norm_num),
    div_left_inj' (by norm_num), symbolRate_eq, symbolRate_eq, div_le_div_iff_of_pos_right (by norm_num)]
  exact_mod_cast And.intro hnear htie

/-! ## Rates near a pair -/

/-- A raw rate less than half a spacing from a pair, without absolute values. -/
theorem bounds_of_two_mul_abs_sub_lt {r d u : Nat} (h : 2 * |(r : ℤ) - d| < u) :
    2 * d < 2 * r + u ∧ 2 * r < 2 * d + u := by
  rcases abs_cases ((r : ℤ) - d) with ⟨habs, hsign⟩ | ⟨habs, hsign⟩ <;> omega

/-- A raw rate below the lower midpoint of a pair with mantissa 0, and less than half a spacing away, is in the range of the
last pair of the exponent before (log entry 15). -/
theorem inSrRange_last_of_below {X r e : Nat} (hnear : 2 * srDecode X 0 (e + 1) < 2 * r + 2 ^ (e + 1) * X)
    (hbelow : 4 * r + 2 ^ (e + 1) * X < 4 * srDecode X 0 (e + 1)) : InSrRange X r 255 e := by
  have hspacing : 2 ^ (e + 1) * X = 2 * (2 ^ e * X) := by ring
  rw [srDecode_eq, Nat.mul_assoc, hspacing] at hnear hbelow
  rw [InSrRange, srDecode_eq, Nat.mul_assoc, srLowerReach, if_neg (by omega)]
  omega

/-! ## Whole numbers of baud -/

/-- A whole number of baud within 1/2 of a pair's rate, in raw rates. -/
theorem raw_bounds_of_whole_baud {X n m e : Nat} (h : |(n : ℚ) - symbolRate X m e| ≤ 1 / 2) :
    srDecode X m e ≤ n * 2 ^ 28 + 2 ^ 27 ∧ n * 2 ^ 28 ≤ srDecode X m e + 2 ^ 27 := by
  obtain ⟨hlow, hhigh⟩ := abs_le.1 h
  have hraw : symbolRate X m e * 2 ^ 28 = srDecode X m e := by
    rw [symbolRate_eq, div_mul_cancel₀ _ (by norm_num)]
  constructor
  · exact_mod_cast (by linarith : (srDecode X m e : ℚ) ≤ n * 2 ^ 28 + 2 ^ 27)
  · exact_mod_cast (by linarith : (n * 2 ^ 28 : ℚ) ≤ srDecode X m e + 2 ^ 27)

/-- At 26 MHz half a baud is less than half the spacing from `e = 4` up, and less than a quarter from `e = 5` up; below the
pair (0, 4), of 396.7 baud, the only whole number within half a baud is 397 (42_symbol_rate.md R135). -/
theorem inSrRange_of_whole_baud {n m e : Nat} (hm : m < 256) (he : 4 ≤ e)
    (hlow : srDecode 26000000 m e ≤ n * 2 ^ 28 + 2 ^ 27) (hhigh : n * 2 ^ 28 ≤ srDecode 26000000 m e + 2 ^ 27) :
    InSrRange 26000000 (n * 2 ^ 28) m e := by
  have hspacing : 2 ^ 4 * 26000000 ≤ 2 ^ e * 26000000 :=
    Nat.mul_le_mul_right _ (Nat.pow_le_pow_right (by norm_num) he)
  refine ⟨?_, by omega⟩
  by_cases hc : m = 0 ∧ e ≠ 0
  · rw [srLowerReach, if_pos hc]
    obtain ⟨rfl, -⟩ := hc
    rcases Nat.eq_or_lt_of_le he with rfl | he5
    · have hrate : srDecode 26000000 0 4 = 106496000000 := srDecode_eq _ _ _
      omega
    · have := two_mul_spacing_le 26000000 he5
      omega
  · rw [srLowerReach, if_neg hc]
    omega

/-- A count over a range, row by row. -/
theorem countP_range_mul (p : Nat → Bool) (a b : Nat) :
    (List.range (a * b)).countP p = ((List.range a).map fun i => (List.range b).countP fun j => p (b * i + j)).sum := by
  induction a with
  | zero => rw [Nat.zero_mul]; rfl
  | succ a ih =>
    rw [Nat.add_one_mul, List.range_add, List.countP_append, ih, List.countP_map, List.range_succ, List.map_append,
      List.sum_append, List.map_singleton, List.sum_singleton, Nat.mul_comm a]
    rfl

/-- The counts of 42_symbol_rate.md R135, each of the 256 mantissas tried, in rows of 16. -/
theorem lost_pairs_by_rows : ((List.range 4).map fun e => ((List.range 16).map fun i => (List.range 16).countP fun j =>
    !survivesWholeBaud State.reset (BitVec.ofNat 8 (16 * i + j)) (BitVec.ofNat 4 e)).sum) = [231, 206, 157, 58] := by
  decide

/-! ## The obligations -/

/-- Settles O24: the answer is the raw rate (`exec_srDec_legal`), which denotes the symbol rate. -/
theorem srDecAnswersTheExactRate : Obligations.SrDecAnswersTheExactRate := by
  intro m e s hX
  obtain ⟨p, hexec, hp⟩ := exec_srDec_legal m e hX
  refine ⟨?_, p, hexec, by rw [hp, srDecode_eq], by rw [baudOf_eq, hp, symbolRate_eq]⟩
  rw [Nat.add_assoc]
  exact (joinWord_toNat _ _).trans (congrArg (0x30 * 2 ^ 56 + ·) (packPair_toNat m e))

/-- Settles O25: in the domain the rate lies in the range of a pair (`srEnc_cases`), which is the nearest one
(`InSrRange.nearest`). -/
theorem srEncAnswersTheNearestPair : Obligations.SrEncAnswersTheNearestPair := by
  intro r s hX
  refine ⟨joinWord_toNat _ _, fun hlow hhigh => ?_, exec_srEnc_of_not_mem_domain hX⟩
  rcases srEnc_cases r hX with ⟨-, hout⟩ | ⟨m, e, hr⟩
  · omega
  · exact ⟨m, e, exec_srEnc_of_inSrRange hX hr, packPair_toNat m e,
      fun m' e' => hr.nearest (crystal_pos hX) m.isLt m'.isLt⟩

/-- Settles O26: a rate whose `256 + mantissa` rounds to 512 is in the range of the first pair of the next exponent, and
above the domain where there is none (`inSrRange_carry`). -/
theorem srEncCarriesIntoTheExponent : Obligations.SrEncCarriesIntoTheExponent := by
  intro r e s hX he _ hhigh hM
  rw [Nat.mul_comm s.xtalHz.toNat] at hM
  rw [Nat.mul_assoc] at hhigh
  obtain ⟨hmid, hrange⟩ := inSrRange_carry (crystal_pos hX) hhigh hM
  refine ⟨fun hlt => exec_srEnc_of_inSrRange hX ?_, fun htop => exec_srEnc_of_not_mem_domain hX (.inr ?_)⟩
  · rwa [BitVec.toNat_ofNat, Nat.mod_eq_of_lt (by omega)]
  · subst htop
    omega

/-- Settles O27: the raw rate of a pair is in the range of the pair. -/
theorem srEncodeAfterDecodeIsIdentity : Obligations.SrEncodeAfterDecodeIsIdentity := by
  intro m e s hX
  obtain ⟨r, hexec, hr⟩ := exec_srDec_legal m e hX
  refine ⟨r, answerOf_of_exec hexec, (answerOf_srEnc_eq_iff hX).2 ?_⟩
  have hpos := spacing_pos (crystal_pos hX) e.toNat
  rw [InSrRange, hr]
  omega

/-- Settles O28: the answers are the raw rates, which are pairwise different (`srDecode_inj`). -/
theorem srPairsHaveDistinctRates : Obligations.SrPairsHaveDistinctRates := by
  intro m m' e e' s hX heq
  obtain ⟨p, hexec, hp⟩ := exec_srDec_legal m e hX
  obtain ⟨p', hexec', hp'⟩ := exec_srDec_legal m' e' hX
  rw [answerOf_of_exec hexec, answerOf_of_exec hexec', answer_response, answer_response, Option.some_inj,
    Response.ok.injEq] at heq
  obtain ⟨hm, he⟩ := srDecode_inj (crystal_pos hX) m.isLt m'.isLt (hp.symm.trans (heq ▸ hp'))
  exact ⟨BitVec.eq_of_toNat_eq hm, BitVec.eq_of_toNat_eq he⟩

/-- Settles O49: `SR.ENC` answers a pair exactly for the rates in its range (`answerOf_srEnc_eq_iff`). -/
theorem srEncReproducesExactlyTheNearRates : Obligations.SrEncReproducesExactlyTheNearRates :=
  fun m e _ _ hX => (answerOf_srEnc_eq_iff hX).trans (inSrRange_operands_iff _ _ m e)

/-- Settles O29: above the lower midpoint of the pair such a rate is in the range of the pair, and below it in that of the
last pair of the exponent before (`inSrRange_last_of_below`); `SR.ENC` answers the pair of the range. -/
theorem rateWithinHalfSpacingEncodesToPairOrLowerNeighbour :
    Obligations.RateWithinHalfSpacingEncodesToPairOrLowerNeighbour := by
  intro m e r s hX hnear
  obtain ⟨hlow, hhigh⟩ := bounds_of_two_mul_abs_sub_lt hnear
  split_ifs with hc
  · obtain ⟨rfl, he, hbelow⟩ := hc
    have hpred : e.toNat = (e - 1).toNat + 1 := by bv_omega
    rw [hpred] at hlow hbelow
    refine (answerOf_srEnc_eq_iff hX).2 (inSrRange_last_of_below ?_ ?_) <;> rwa [srDecode_eq]
  · refine (answerOf_srEnc_eq_iff hX).2 ((inSrRange_operands_iff _ _ m e).2 ⟨?_, by omega⟩)
    split_ifs with hm
    · obtain ⟨rfl, he⟩ := hm
      rw [Nat.one_mul]
      exact Nat.le_of_not_lt fun hbelow => hc ⟨rfl, he, hbelow⟩
    · omega

/-- Settles O30: the case of O29 outside its exception. -/
theorem roundedRateSurvivesAwayFromLowerEdge : Obligations.RoundedRateSurvivesAwayFromLowerEdge := by
  intro m e r s hX hnear hedge
  have hans := rateWithinHalfSpacingEncodesToPairOrLowerNeighbour m e r s hX hnear
  rwa [if_neg fun ⟨hm, he, hbelow⟩ => (hedge hm he).not_gt hbelow] at hans

/-- Settles O48: the whole number is in the range of the pair (`inSrRange_of_whole_baud`), and the counts are those of
`lost_pairs_by_rows`. -/
theorem wholeBaudRoundingAtDefaultCrystal : Obligations.WholeBaudRoundingAtDefaultCrystal := by
  refine ⟨fun m e n s hs he hn => ?_, ?_⟩
  · have hX : LegalCrystal s := fun h => by simp [h] at hs
    obtain ⟨hlow, hhigh⟩ := raw_bounds_of_whole_baud hn
    have hrate := (srDecode_bounds 26000000 e.toNat m.isLt).2
    have hspacing := (spacing_bounds 26000000 e.isLt).2
    have hfits : n * 2 ^ 28 < 2 ^ 56 := by omega
    refine ⟨hfits, (answerOf_srEnc_eq_iff hX).2 ?_⟩
    rw [hs, BitVec.toNat_ofNat, Nat.mod_eq_of_lt hfits]
    exact inSrRange_of_whole_baud m.isLt he hlow hhigh
  · exact (List.map_congr_left fun e _ => countP_range_mul _ 16 16).trans lost_pairs_by_rows

end Sys2Proof.Machine
end

section
/-! The register bit-field operations (43_bitfield.md). -/

namespace Sys2Proof.Machine

/-! ## The bits of a field -/

/-- A bit of the mask of the lowest `n` bits. -/
theorem lowMask_getLsbD (n k : Nat) : (BitVec.ofNat 8 (2 ^ n - 1)).getLsbD k = decide (k < 8 ∧ k < n) := by
  rw [BitVec.getLsbD_ofNat, Nat.testBit_two_pow_sub_one, Bool.decide_and]

/-- A bit of the mask of a range. -/
theorem fieldMask_getLsbD {hi lo : BitIndex} (h : lo.toNat ≤ hi.toNat) (k : Nat) :
    (fieldMask hi lo).getLsbD k = decide (lo.toNat ≤ k ∧ k ≤ hi.toNat) := by
  rw [fieldMask, BitVec.getLsbD_ofNat, Nat.testBit_mul_two_pow, Nat.testBit_two_pow_sub_one, rangeWidth,
    ← Bool.decide_and, ← Bool.decide_and, decide_eq_decide]
  omega

/-- A bit of the field that `BF.EXT` answers: bit `k` is bit `lo + k` of the byte where that lies in the range, else zero. -/
theorem bfExtract_getLsbD {hi lo : BitIndex} (h : lo.toNat ≤ hi.toNat) (byte : Byte) (k : Nat) :
    (bfExtract byte hi lo).getLsbD k = if lo.toNat + k ≤ hi.toNat then byte.getLsbD (lo.toNat + k) else false := by
  have hmask : (k < 8 ∧ k < rangeWidth hi lo) ↔ lo.toNat + k ≤ hi.toNat := by
    unfold rangeWidth
    omega
  simp only [bfExtract, BitVec.getLsbD_and, BitVec.getLsbD_ushiftRight, lowMask_getLsbD, hmask]
  split <;> simp [*]

/-- A value of `n` bits has no bit from `n` up. -/
theorem getLsbD_of_toNat_lt {value : Byte} {n k : Nat} (hv : value.toNat < 2 ^ n) (hk : n ≤ k) :
    value.getLsbD k = false :=
  Nat.testBit_lt_two_pow (hv.trans_le (Nat.pow_le_pow_right (by norm_num) hk))

/-- A bit of the byte that `BF.INS` answers (43_bitfield.md R161): a value that fits its range reaches no bit above it. -/
theorem bfInsert_getLsbD {hi lo : BitIndex} {value : Byte} (h : lo.toNat ≤ hi.toNat)
    (hv : value.toNat < 2 ^ rangeWidth hi lo) (byte : Byte) {k : Nat} (hk : k < 8) :
    (bfInsert byte hi lo value).getLsbD k =
      if lo.toNat ≤ k ∧ k ≤ hi.toNat then value.getLsbD (k - lo.toNat) else byte.getLsbD k := by
  rw [bfInsert, BitVec.getLsbD_or, BitVec.getLsbD_and, BitVec.getLsbD_not, fieldMask_getLsbD h, BitVec.getLsbD_shiftLeft]
  by_cases hin : lo.toNat ≤ k ∧ k ≤ hi.toNat
  · rw [if_pos hin, decide_eq_true hin, decide_eq_false (Nat.not_lt.2 hin.1)]
    simp [hk]
  · have hclear : (!decide (k < lo.toNat) && value.getLsbD (k - lo.toNat)) = false := by
      rcases Nat.lt_or_ge k lo.toNat with hlow | hlow
      · simp [hlow]
      · rw [getLsbD_of_toNat_lt hv (by unfold rangeWidth; omega), Bool.and_false]
    rw [if_neg hin, decide_eq_false hin, Bool.and_assoc, hclear]
    simp [hk]

/-- The number that `BF.EXT` answers. -/
theorem bfExtract_toNat (byte : Byte) (hi lo : BitIndex) :
    (bfExtract byte hi lo).toNat = byte.toNat / 2 ^ lo.toNat % 2 ^ rangeWidth hi lo := by
  have hwidth : 2 ^ rangeWidth hi lo ≤ 2 ^ 8 :=
    Nat.pow_le_pow_right (by norm_num) (by unfold rangeWidth; omega)
  have hmask : (BitVec.ofNat 8 (2 ^ rangeWidth hi lo - 1)).toNat = 2 ^ rangeWidth hi lo - 1 :=
    Nat.mod_eq_of_lt (by omega)
  rw [bfExtract, BitVec.toNat_and, BitVec.toNat_ushiftRight, hmask, Nat.and_two_pow_sub_one_eq_mod,
    Nat.shiftRight_eq_div_pow]

/-- An extracted field fits its range. -/
theorem bfExtract_lt (byte : Byte) (hi lo : BitIndex) : (bfExtract byte hi lo).toNat < 2 ^ rangeWidth hi lo := by
  rw [bfExtract_toNat]
  exact Nat.mod_lt _ (Nat.two_pow_pos _)

/-! ## The five laws on bytes (43_bitfield.md R162) -/

/-- What was inserted is read back. -/
theorem bfExtract_bfInsert_same {hi lo : BitIndex} {value : Byte} (h : lo.toNat ≤ hi.toNat)
    (hv : value.toNat < 2 ^ rangeWidth hi lo) (byte : Byte) : bfExtract (bfInsert byte hi lo value) hi lo = value := by
  refine BitVec.eq_of_getLsbD_eq fun k _ => ?_
  rw [bfExtract_getLsbD h]
  split
  next hin => rw [bfInsert_getLsbD h hv byte (by omega), if_pos ⟨by omega, hin⟩, Nat.add_sub_cancel_left]
  next hout => exact (getLsbD_of_toNat_lt hv (by unfold rangeWidth; omega)).symm

/-- A range disjoint from the one written reads as before. -/
theorem bfExtract_bfInsert_disjoint {hi lo hi2 lo2 : BitIndex} {value : Byte} (h : lo.toNat ≤ hi.toNat)
    (hv : value.toNat < 2 ^ rangeWidth hi lo) (h2 : lo2.toNat ≤ hi2.toNat)
    (hdisj : hi.toNat < lo2.toNat ∨ hi2.toNat < lo.toNat) (byte : Byte) :
    bfExtract (bfInsert byte hi lo value) hi2 lo2 = bfExtract byte hi2 lo2 := by
  refine BitVec.eq_of_getLsbD_eq fun k _ => ?_
  rw [bfExtract_getLsbD h2, bfExtract_getLsbD h2]
  refine ite_congr rfl (fun hin => ?_) fun _ => rfl
  rw [bfInsert_getLsbD h hv byte (by omega), if_neg (by omega)]

/-- Inserting the field that is there changes nothing. -/
theorem bfInsert_bfExtract {hi lo : BitIndex} (h : lo.toNat ≤ hi.toNat) (byte : Byte) :
    bfInsert byte hi lo (bfExtract byte hi lo) = byte := by
  refine BitVec.eq_of_getLsbD_eq fun k hk => ?_
  rw [bfInsert_getLsbD h (bfExtract_lt byte hi lo) byte hk]
  split
  next hin => rw [bfExtract_getLsbD h, Nat.add_sub_cancel' hin.1, if_pos hin.2]
  next hout => rfl

/-- The last write of a range wins. -/
theorem bfInsert_bfInsert_same {hi lo : BitIndex} {value value2 : Byte} (h : lo.toNat ≤ hi.toNat)
    (hv : value.toNat < 2 ^ rangeWidth hi lo) (hv2 : value2.toNat < 2 ^ rangeWidth hi lo) (byte : Byte) :
    bfInsert (bfInsert byte hi lo value) hi lo value2 = bfInsert byte hi lo value2 := by
  refine BitVec.eq_of_getLsbD_eq fun k hk => ?_
  rw [bfInsert_getLsbD h hv2 _ hk, bfInsert_getLsbD h hv2 _ hk]
  refine ite_congr rfl (fun _ => rfl) fun hout => ?_
  rw [bfInsert_getLsbD h hv byte hk, if_neg hout]

/-- Writes of disjoint ranges commute: no bit lies in both. -/
theorem bfInsert_comm {hi lo hi2 lo2 : BitIndex} {value value2 : Byte} (h : lo.toNat ≤ hi.toNat)
    (hv : value.toNat < 2 ^ rangeWidth hi lo) (h2 : lo2.toNat ≤ hi2.toNat) (hv2 : value2.toNat < 2 ^ rangeWidth hi2 lo2)
    (hdisj : hi.toNat < lo2.toNat ∨ hi2.toNat < lo.toNat) (byte : Byte) :
    bfInsert (bfInsert byte hi lo value) hi2 lo2 value2 = bfInsert (bfInsert byte hi2 lo2 value2) hi lo value := by
  refine BitVec.eq_of_getLsbD_eq fun k hk => ?_
  simp only [bfInsert_getLsbD h hv _ hk, bfInsert_getLsbD h2 hv2 _ hk]
  by_cases hin : lo.toNat ≤ k ∧ k ≤ hi.toNat
  · have hout2 : ¬ (lo2.toNat ≤ k ∧ k ≤ hi2.toNat) := by omega
    rw [if_neg hout2, if_pos hin, if_pos hin]
  · rw [if_neg hin, if_neg hin]

/-! ## What the two operations answer -/

/-- `BF.EXT` of a range answers its field. -/
theorem exec_bfExt_of_le {hi lo : BitIndex} (h : lo.toNat ≤ hi.toNat) (byte : Byte) (s : State) :
    exec (.bfExt byte hi lo) s = respond ((bfExtract byte hi lo).setWidth 56) s := if_neg (Nat.not_lt.2 h)

/-- `BF.EXT` refuses indices in the wrong order. -/
theorem exec_bfExt_of_lt {hi lo : BitIndex} (h : hi.toNat < lo.toNat) (byte : Byte) (s : State) :
    exec (.bfExt byte hi lo) s = raise .domainError s := if_pos h

/-- `BF.INS` of a value that fits a range answers the byte with it. -/
theorem exec_bfIns_of_fits {hi lo : BitIndex} {value : Byte} (h : lo.toNat ≤ hi.toNat)
    (hv : value.toNat < 2 ^ rangeWidth hi lo) (byte : Byte) (s : State) :
    exec (.bfIns byte hi lo value) s = respond ((bfInsert byte hi lo value).setWidth 56) s :=
  (if_neg (Nat.not_lt.2 h)).trans (if_neg (Nat.not_le.2 hv))

/-- `BF.INS` refuses indices in the wrong order and a value that does not fit. -/
theorem exec_bfIns_of_not_fits {hi lo : BitIndex} {value : Byte}
    (h : hi.toNat < lo.toNat ∨ 2 ^ rangeWidth hi lo ≤ value.toNat) (byte : Byte) (s : State) :
    exec (.bfIns byte hi lo value) s = raise .domainError s := by
  rw [exec_bfIns, execBfIns]
  split
  next => rfl
  next hlt => exact if_pos (h.resolve_left hlt)

/-- The answer of `BF.EXT` for a range. -/
theorem answerOf_bfExt {hi lo : BitIndex} (h : lo.toNat ≤ hi.toNat) (byte : Byte) (s : State) :
    answerOf (.bfExt byte hi lo) s = some (.ok ((bfExtract byte hi lo).setWidth 56)) :=
  answerOf_of_exec (exec_bfExt_of_le h byte s)

/-- The answer of `BF.INS` for a value that fits a range. -/
theorem answerOf_bfIns {hi lo : BitIndex} {value : Byte} (h : lo.toNat ≤ hi.toNat)
    (hv : value.toNat < 2 ^ rangeWidth hi lo) (byte : Byte) (s : State) :
    answerOf (.bfIns byte hi lo value) s = some (.ok ((bfInsert byte hi lo value).setWidth 56)) :=
  answerOf_of_exec (exec_bfIns_of_fits h hv byte s)

/-! ## The command payloads (30_encoding.md R63) -/

/-- The two indices of a range stand in bits 21:16. -/
theorem payAt_range_toNat (hi lo : BitIndex) :
    (payAt hi 19 ||| payAt lo 16).toNat = (hi.toNat * 2 ^ 3 + lo.toNat) * 2 ^ 16 := by
  have hhi : (payAt hi 19).toNat = hi.toNat * 2 ^ 19 := payAt_toNat hi 19 (by norm_num)
  have hlo : (payAt lo 16).toNat = lo.toNat * 2 ^ 16 := payAt_toNat lo 16 (by norm_num)
  rw [or_toNat_of_lt hhi (by omega), hhi, hlo]
  ring

/-- The payload of `BF.EXT` as a number. -/
theorem bfExt_pay_toNat (byte : Byte) (hi lo : BitIndex) :
    (Instr.bfExt byte hi lo).pay.toNat = hi.toNat * 2 ^ 19 + lo.toNat * 2 ^ 16 + byte.toNat := by
  have hbyte : (payAt byte 0).toNat = byte.toNat := (payAt_toNat byte 0 (by norm_num)).trans (Nat.mul_one _)
  rw [Instr.pay, or_toNat_of_lt (payAt_range_toNat hi lo) (by omega), payAt_range_toNat, hbyte]
  ring

/-- The payload of `BF.INS` as a number. -/
theorem bfIns_pay_toNat (byte : Byte) (hi lo : BitIndex) (value : Byte) :
    (Instr.bfIns byte hi lo value).pay.toNat =
      hi.toNat * 2 ^ 19 + lo.toNat * 2 ^ 16 + value.toNat * 2 ^ 8 + byte.toNat := by
  have hbyte : (payAt byte 0).toNat = byte.toNat := (payAt_toNat byte 0 (by norm_num)).trans (Nat.mul_one _)
  have hvalue : (payAt value 8).toNat = value.toNat * 2 ^ 8 := payAt_toNat value 8 (by norm_num)
  have hupper : (payAt hi 19 ||| payAt lo 16 ||| payAt value 8).toNat =
      ((hi.toNat * 2 ^ 3 + lo.toNat) * 2 ^ 8 + value.toNat) * 2 ^ 8 := by
    rw [or_toNat_of_lt (payAt_range_toNat hi lo) (by omega), payAt_range_toNat, hvalue]
    ring
  rw [Instr.pay, or_toNat_of_lt hupper (by omega), hupper, hbyte]
  ring

/-! ## The obligations -/

/-- Settles O31: the answer is the field (`exec_bfExt_of_le`), which is a quotient's remainder (`bfExtract_toNat`). -/
theorem bfExtAnswersTheField : Obligations.BfExtAnswersTheField := by
  intro byte hi lo s
  refine ⟨?_, fun h => ⟨_, exec_bfExt_of_le h byte s, ?_⟩, fun h => exec_bfExt_of_lt h byte s⟩
  · rw [encode, joinWord_toNat, bfExt_pay_toNat, ← Nat.add_assoc, ← Nat.add_assoc]
    rfl
  · exact (BitVec.toNat_setWidth_of_le (by norm_num)).trans (bfExtract_toNat byte hi lo)

/-- Settles O32: the answer is the byte that `bfInsert_getLsbD` describes bit by bit. -/
theorem bfInsWritesTheFieldOnly : Obligations.BfInsWritesTheFieldOnly := by
  intro byte hi lo value s
  refine ⟨?_, fun h hv => ⟨_, exec_bfIns_of_fits h hv byte s, ?_, fun k hk => ?_⟩,
    fun h => exec_bfIns_of_not_fits h byte s⟩
  · rw [encode, joinWord_toNat, bfIns_pay_toNat, ← Nat.add_assoc, ← Nat.add_assoc, ← Nat.add_assoc]
    rfl
  · exact (BitVec.toNat_setWidth_of_le (by norm_num)).trans_lt (bfInsert byte hi lo value).isLt
  · rw [BitVec.getLsbD_setWidth, decide_eq_true (by omega : k < 56), Bool.true_and]
    exact bfInsert_getLsbD h hv byte hk

/-- Settles O33: each law holds of the bytes the two operations answer. -/
theorem bitFieldLawsHold : Obligations.BitFieldLawsHold := by
  intro b v v2 hi lo hi2 lo2 s h hv h2
  refine ⟨bfInsert b hi lo v, answerOf_bfIns h hv b s, ?_, fun hdisj => ?_,
    ⟨bfExtract b hi lo, answerOf_bfExt h b s, ?_⟩, fun hv2 => ?_, fun hdisj hv2 =>
    ⟨bfInsert b hi2 lo2 v2, answerOf_bfIns h2 hv2 b s, ?_⟩⟩
  · rw [answerOf_bfExt h, bfExtract_bfInsert_same h hv]
  · rw [answerOf_bfExt h2, answerOf_bfExt h2, bfExtract_bfInsert_disjoint h hv h2 hdisj]
  · rw [answerOf_bfIns h (bfExtract_lt b hi lo), bfInsert_bfExtract h]
  · rw [answerOf_bfIns h hv2, answerOf_bfIns h hv2, bfInsert_bfInsert_same h hv hv2]
  · rw [answerOf_bfIns h2 hv2, answerOf_bfIns h hv, bfInsert_comm h hv h2 hv2 hdisj]

end Sys2Proof.Machine
end

section
/-! The configuration operations: the command word of each and its answer (44_config.md R180, R182). -/

namespace Sys2Proof.Machine

/-- `XTAL.GET` answers the register, widened to a payload, and writes the response only (44_config.md R180). -/
theorem exec_xtalGet_answers (s : State) :
    exec .xtalGet s = .next { s with response := some (.ok (s.xtalHz.setWidth 56)) } := rfl

/-- `XTAL.SET` of a nonzero frequency writes the register and answers payload zero (44_config.md R182). -/
theorem exec_xtalSet_of_ne {x : Crystal} (h : x ≠ 0) (s : State) :
    exec (.xtalSet x) s = .next { s with xtalHz := x, response := some (.ok 0) } := execXtalSet_ne h s

/-- `XTAL.SET` of zero writes the response only (44_config.md R182). -/
theorem exec_xtalSet_zero (s : State) :
    exec (.xtalSet 0) s = .next { s with response := some (.error .domainError) } := execXtalSet_zero s

/-- The payload of `XTAL.SET` as a number (30_encoding.md R63). -/
theorem xtalSet_pay_toNat (x : Crystal) : (Instr.xtalSet x).pay.toNat = x.toNat :=
  (payAt_toNat x 0 (by norm_num)).trans (Nat.mul_one _)

/-! ## The obligations -/

/-- Settles O13: the 32-bit register fits the 56-bit payload, so the answer is the register's own number. -/
theorem xtalGetAnswersTheCrystal : Obligations.XtalGetAnswersTheCrystal := fun s =>
  ⟨joinWord_toNat _ _, _, exec_xtalGet_answers s, BitVec.toNat_setWidth_of_le (by norm_num)⟩

/-- Settles O14: the command word is its two fields, and the two cases of the operand are the two answers. -/
theorem xtalSetWritesANonzeroCrystal : Obligations.XtalSetWritesANonzeroCrystal := by
  intro x s
  refine ⟨?_, fun hx => exec_xtalSet_of_ne hx s, ?_⟩
  · exact (joinWord_toNat _ _).trans (congrArg (0x02 * 2 ^ 56 + ·) (xtalSet_pay_toNat x))
  · rintro rfl
    exact exec_xtalSet_zero s

end Sys2Proof.Machine
end

section
/-! The outcomes of commands and of whole lists of interactions (60_exceptions.md). -/

namespace Sys2Proof.Machine

/-! ## DomainError (60_exceptions.md R191) -/

/-- `XTAL.GET`, `FCW.DEC` and `SR.DEC` have no row in the table; every other instruction is refused in the cases of its
row. -/
theorem exec_of_domainErrorCause {i : Instr} {s : State} (hX : LegalCrystal s)
    (hc : domainErrorCause s.xtalHz.toNat i) : exec i s = raise .domainError s := by
  cases i with
  | xtalGet => exact hc.elim
  | fcwDec b0 b1 b2 => exact hc.elim
  | srDec m e => exact hc.elim
  | xtalSet x =>
    obtain ⟨-, -, hrefused⟩ := xtalSetWritesANonzeroCrystal x s
    exact hrefused hc
  | fcwEnc h =>
    obtain ⟨-, -, hrefused⟩ := fcwEncAnswersTheNearestWord h s hX
    exact hrefused hc
  | fbwDec m e =>
    obtain ⟨-, -, hrefused⟩ := fbwDecAnswersTheRoundedBandwidth m e s hX
    exact hrefused hc
  | fbwEnc h =>
    obtain ⟨-, -, hrefused⟩ := fbwEncAnswersTheNearestPair h s hX
    exact hrefused hc
  | srEnc r => exact exec_srEnc_of_not_mem_domain hX hc
  | bfExt byte hi lo => exact exec_bfExt_of_lt hc byte s
  | bfIns byte hi lo value => exact exec_bfIns_of_not_fits hc byte s

/-- Outside the cases of the table every instruction answers a result. -/
theorem exec_of_not_domainErrorCause {i : Instr} {s : State} (hX : LegalCrystal s)
    (hc : ¬ domainErrorCause s.xtalHz.toNat i) :
    ∃ (t : State) (p : Pay), exec i s = .next t ∧ t.response = some (.ok p) := by
  cases i with
  | xtalGet => exact ⟨_, _, exec_xtalGet_answers s, rfl⟩
  | xtalSet x => exact ⟨_, _, exec_xtalSet_of_ne hc s, rfl⟩
  | fcwDec b0 b1 b2 =>
    obtain ⟨p, hexec, -⟩ := exec_fcwDec_legal b0 b1 b2 hX
    exact ⟨_, p, hexec, rfl⟩
  | fcwEnc h =>
    obtain ⟨-, hanswered, -⟩ := fcwEncAnswersTheNearestWord h s hX
    obtain ⟨p, hexec, -⟩ := hanswered (Nat.lt_of_not_le hc)
    exact ⟨_, p, hexec, rfl⟩
  | fbwDec m e =>
    obtain ⟨hm, he⟩ := not_or.1 hc
    obtain ⟨p, hexec, -⟩ := exec_fbwDec_of_mem hX (mem_fbwPairs_iff.2 ⟨Nat.le_of_not_lt hm, Nat.le_of_not_lt he⟩)
    exact ⟨_, p, hexec, rfl⟩
  | fbwEnc h =>
    obtain ⟨hhigh, hlow⟩ := not_or.1 hc
    obtain ⟨-, hanswered, -⟩ := fbwEncAnswersTheNearestPair h s hX
    obtain ⟨m, e, -, -, hexec, -⟩ := hanswered (Nat.le_of_not_lt hlow) (Nat.le_of_not_lt hhigh)
    exact ⟨_, _, hexec, rfl⟩
  | srDec m e =>
    obtain ⟨p, hexec, -⟩ := exec_srDec_legal m e hX
    exact ⟨_, p, hexec, rfl⟩
  | srEnc r =>
    rcases srEnc_cases r hX with ⟨-, hout⟩ | ⟨m, e, hr⟩
    · exact absurd hout hc
    · exact ⟨_, _, exec_srEnc_of_inSrRange hX hr, rfl⟩
  | bfExt byte hi lo => exact ⟨_, _, exec_bfExt_of_le (Nat.le_of_not_lt hc) byte s, rfl⟩
  | bfIns byte hi lo value =>
    obtain ⟨hrange, hfits⟩ := not_or.1 hc
    exact ⟨_, _, exec_bfIns_of_fits (Nat.le_of_not_lt hrange) (Nat.lt_of_not_le hfits) byte s, rfl⟩

/-- Settles O34, by the instruction: refused in the cases of its row, answered in all others. -/
theorem domainErrorExactlyWhenTabled : Obligations.DomainErrorExactlyWhenTabled :=
  ⟨fun _ _ hX => ⟨exec_of_domainErrorCause hX, exec_of_not_domainErrorCause hX⟩, rfl⟩

/-! ## The outcome of a command (60_exceptions.md R190, R196) -/

/-- A response has one of three statuses (30_encoding.md R61). -/
theorem response_cases (r : Response) :
    (∃ p, r = .ok p) ∨ r = .error .domainError ∨ r = .error .illegalCommand := by
  rcases r with p | ⟨_ | _⟩
  · exact .inl ⟨p, rfl⟩
  · exact .inr (.inl rfl)
  · exact .inr (.inr rfl)

/-- A command takes nothing from the port and leaves a response. -/
theorem runCommand_port_response {w : Word} {s t : State} (h : runCommand w s = .next t) :
    t.port = s.port ∧ ∃ r, t.response = some r := by
  rcases runCommand_next h with ⟨x, -, rfl⟩ | ⟨-, r, rfl⟩ <;> exact ⟨rfl, _, rfl⟩

/-- A command answered with an error wrote the response only: the one that writes the crystal answers OK. -/
theorem runCommand_error {w : Word} {s t : State} {e : ErrorKind} (h : runCommand w s = .next t)
    (he : t.response = some (.error e)) : t = s.answer (.error e) := by
  rcases runCommand_next h with ⟨x, -, rfl⟩ | ⟨-, r, rfl⟩
  · cases he
  · rw [Option.some.inj he]

/-- A step answered with an error took its interaction from the port and wrote the response only: it ran a command, since a
reset gives no response. -/
theorem step_error {s t : State} {e : ErrorKind} (h : step s = .next t) (he : t.response = some (.error e)) :
    t = { s with port := s.port.tail, response := some (.error e) } := by
  obtain ⟨_, rest, hp, ⟨w, -, hw⟩ | ⟨-, rfl⟩⟩ := step_next h
  · rw [runCommand_error hw he, hp]
    rfl
  · cases he

/-- Settles O36: a legal crystal lets every word be answered (`runCommand_legal`), and the crystal left is that of
`newCrystal`, which neither an error nor a word that is no `XTAL.SET` has. -/
theorem everyCommandIsAnswered : Obligations.EveryCommandIsAnswered := by
  intro s w rest hX hp
  obtain ⟨t, ht⟩ := runCommand_legal w (s := { s with port := rest }) hX
  obtain ⟨hport, r, hr⟩ := runCommand_port_response ht
  refine ⟨t, r, (step_command hp).trans ht, hport, hr, response_cases r, ?_, fun hset => ?_⟩
  · rintro ⟨e, rfl⟩
    rw [runCommand_error ht hr, answer_xtalHz]
  · rw [runCommand_xtalHz ht, newCrystal_eq_none fun x hx => absurd hx (hset x), Option.getD_none]

/-- Settles O42: the failed step left a state that differs in the response only (`step_error`), and the next step does not
read the response. -/
theorem errorLeavesNoTrace : Obligations.ErrorLeavesNoTrace := by
  intro s t e h he
  have ht := step_error h he
  refine ⟨ht, ?_⟩
  rw [ht]
  exact responseIsNeverRead { s with port := s.port.tail } (some (.error e))

/-! ## Whole lists of interactions (60_exceptions.md R206) -/

/-- Settles O43: a list is served whatever is presented after it (`run_serves`), here nothing. -/
theorem runServesEveryInteraction : Obligations.RunServesEveryInteraction := fun s hX hw =>
  run_serves s.port hw hX (List.append_nil s.port).symm

end Sys2Proof.Machine
end

section
/-! The steps that are no command: reset, overlapping commands and an empty port (70_reset_and_hazards.md). -/

namespace Sys2Proof.Machine

/-- What reset leaves of a state, its port already taken from (70_reset_and_hazards.md R220). -/
theorem resetBlock_with_port (s : State) (rest : List HostEvent) :
    resetBlock { s with port := rest } = .next { xtalHz := 26000000#32, port := rest, response := none } :=
  resetBlock_eq _

/-- Settles O10: between commands or within one, the interaction taken is a reset of the block (`resetBlock_with_port`),
and nothing of the command cut off is looked at. -/
theorem resetRestoresDefaultCrystal : Obligations.ResetRestoresDefaultCrystal := by
  rintro s rest w (hreset | hcut)
  · exact (step_cons_eq hreset).trans (resetBlock_with_port s rest)
  · exact (step_cons_eq hcut).trans (resetBlock_with_port s rest)

/-- Settles O11: the step takes the overlapping commands, which have no meaning, or finds nothing to take. -/
theorem overlapAndEmptyPortHaveNoStep : Obligations.OverlapAndEmptyPortHaveNoStep := by
  constructor
  · intro s a b rest hoverlap
    exact step_cons_eq hoverlap
  · intro s hempty
    exact step_nil_eq hempty

end Sys2Proof.Machine
end
